-- ==== Sys2Proof/Word.lean ====
section
/-! DEFINITION. The command word, the two chains, and the names of the eight lines. -/

namespace Sys2Proof

/-- A command word or a host register: 32 bits, bit 0 least significant (R12, R58). -/
abbrev Word := BitVec 32

/-- The two shift-register chains (R24). -/
inductive ChainId where
  | led
  | dig
  deriving DecidableEq, Repr, Inhabited

/-- What a line does for its chain: the two low bits of its identifier (R23). -/
inductive LineFn where
  | ser
  | clk
  | lat
  | oe
  deriving DecidableEq, Repr, Inhabited

/-- One of the eight lines (R23): a chain and a function. -/
structure Line where
  chain : ChainId
  fn : LineFn
  deriving DecidableEq, Repr, Inhabited

/-- The level of a line: low, high, or not driven (R14, R23). -/
inductive Level where
  | lo
  | hi
  | z
  deriving DecidableEq, Repr, Inhabited

end Sys2Proof
end

