-- ==== Sys2Proof/Syntax.lean ====
section
/-! DEFINITION. The command set: one constructor per row of spec/opcode_table.json. -/

namespace Sys2Proof

/-- A decoded command (R60). `LOAD` has two rows in the opcode table, one per chain (R64), and so two constructors. Every
operand has exactly the width of its field, so a term of `Instr` is well-formed by its type. -/
inductive Instr where
  /-- `INITIALIZE cl, cd` (R61, R121). -/
  | init (cl cd : Bool)
  /-- `SHUTDOWN cl, cd` (R61, R135). -/
  | shutdown (cl cd : Bool)
  /-- `SET_LEDS`: bit `k-1` of `l` is LED `k` (R62, R125). -/
  | setLeds (l : BitVec 6)
  /-- `SET_DIGITS`: bits `4k-1 .. 4k-4` of `g` are the field of digit `k` (R63, R130). -/
  | setDigits (g : BitVec 24)
  /-- `LOAD led` (R64 with `C = 0`, R99). -/
  | loadLed (b : BitVec 6)
  /-- `LOAD dig` (R64 with `C = 1`, R99). -/
  | loadDig (b : BitVec 24)
  /-- `ENABLE c` (R65, R112). -/
  | enable (c : ChainId)
  /-- `DISABLE c` (R65, R113). -/
  | disable (c : ChainId)
  /-- `PULSE line, rest, width`: width 0 stands for `T_PULSE` (R66, R81). -/
  | pulse (line : Line) (rest : Bool) (width : BitVec 16)
  /-- `ENCODE_DIGIT v` (R67, R90). -/
  | encodeDigit (v : BitVec 4)
  deriving DecidableEq, Repr

end Sys2Proof
end

