-- ==== Sys2Proof/Decode.lean ====
section
/-! DEFINITION. The decoder, total on all words, and the encoder (30_encoding.md). -/

namespace Sys2Proof

/-- Why a word is illegal (R70, R71). -/
inductive IllegalWord where
  /-- `OP` is 0x0 or 0xA to 0xF. -/
  | opcode
  /-- A reserved bit of the word's format is 1. -/
  | reservedBits
  deriving DecidableEq, Repr

/-- The line an identifier names (R23, R68). -/
def lineOfBits (n : BitVec 3) : Line :=
  { chain := if n.getLsbD 2 then .dig else .led
    fn := match n.getLsbD 1, n.getLsbD 0 with
      | false, false => .ser
      | false, true => .clk
      | true, false => .lat
      | true, true => .oe }

/-- The chain a `C` bit names (R64, R65). -/
def chainOfBit (c : Bool) : ChainId := if c then .dig else .led

/-- The `C` bit of a chain (R64, R65). -/
def bitOfChain : ChainId → BitVec 1
  | .led => 0#1
  | .dig => 1#1

/-- The function bits of a line identifier (R23). -/
def bitsOfFn : LineFn → BitVec 2
  | .ser => 0#2
  | .clk => 1#2
  | .lat => 2#2
  | .oe => 3#2

/-- The identifier of a line: `N = chain * 4 + function` (R23, R68). -/
def bitsOfLine (l : Line) : BitVec 3 := bitOfChain l.chain ++ bitsOfFn l.fn

/-- The field `w[lo+n-1 : lo]` (R12). -/
def fieldAt (w : Word) (lo n : Nat) : BitVec n := w.extractLsb' lo n

/-- The instruction if the reserved bits are 0, else the word is illegal (R71, R73). -/
def ifReserved (zero : Bool) (i : Instr) : Except IllegalWord Instr :=
  if zero then .ok i else .error .reservedBits

/-- The decoder in the order of R73: the opcode, then the format's reserved bits, then the fields. It reads no state. -/
def decode (w : Word) : Except IllegalWord Instr :=
  match (fieldAt w 28 4).toNat with
  | 0x1 => ifReserved (fieldAt w 2 26 == 0) (.init (w.getLsbD 0) (w.getLsbD 1))
  | 0x2 => ifReserved (fieldAt w 2 26 == 0) (.shutdown (w.getLsbD 0) (w.getLsbD 1))
  | 0x3 => ifReserved (fieldAt w 6 22 == 0) (.setLeds (fieldAt w 0 6))
  | 0x4 => ifReserved (fieldAt w 24 4 == 0) (.setDigits (fieldAt w 0 24))
  | 0x5 =>
    if w.getLsbD 24 then ifReserved (fieldAt w 25 3 == 0) (.loadDig (fieldAt w 0 24))
    else ifReserved (fieldAt w 25 3 == 0 && fieldAt w 6 18 == 0) (.loadLed (fieldAt w 0 6))
  | 0x6 => ifReserved (fieldAt w 25 3 == 0 && fieldAt w 0 24 == 0) (.enable (chainOfBit (w.getLsbD 24)))
  | 0x7 => ifReserved (fieldAt w 25 3 == 0 && fieldAt w 0 24 == 0) (.disable (chainOfBit (w.getLsbD 24)))
  | 0x8 =>
    ifReserved (fieldAt w 24 4 == 0 && fieldAt w 5 3 == 0 && fieldAt w 3 1 == 0)
      (.pulse (lineOfBits (fieldAt w 0 3)) (w.getLsbD 4) (fieldAt w 8 16))
  | 0x9 => ifReserved (fieldAt w 4 24 == 0) (.encodeDigit (fieldAt w 0 4))
  | _ => .error .opcode

/-- A field's value at its place in a word, bit 0 of the field at bit `lo` (R12). -/
def putAt (lo : Nat) {n : Nat} (x : BitVec n) : Word := x.setWidth 32 <<< lo

/-- The word of a command: the opcode, and each field at its place (R61 to R67); every reserved bit is 0. The fields do not overlap
(R74). -/
def encode : Instr → Word
  | .init cl cd => putAt 28 0x1#4 ||| putAt 1 (BitVec.ofBool cd) ||| putAt 0 (BitVec.ofBool cl)
  | .shutdown cl cd => putAt 28 0x2#4 ||| putAt 1 (BitVec.ofBool cd) ||| putAt 0 (BitVec.ofBool cl)
  | .setLeds l => putAt 28 0x3#4 ||| putAt 0 l
  | .setDigits g => putAt 28 0x4#4 ||| putAt 0 g
  | .loadLed b => putAt 28 0x5#4 ||| putAt 24 (bitOfChain .led) ||| putAt 0 b
  | .loadDig b => putAt 28 0x5#4 ||| putAt 24 (bitOfChain .dig) ||| putAt 0 b
  | .enable c => putAt 28 0x6#4 ||| putAt 24 (bitOfChain c)
  | .disable c => putAt 28 0x7#4 ||| putAt 24 (bitOfChain c)
  | .pulse line rest width =>
    putAt 28 0x8#4 ||| putAt 8 width ||| putAt 4 (BitVec.ofBool rest) ||| putAt 0 (bitsOfLine line)
  | .encodeDigit v => putAt 28 0x9#4 ||| putAt 0 v

/-- The instruction read from a word whose low `nbits` bits are those of `w`; the bits above are 0. -/
def decodeTableWord (nbits w : Nat) : Option Instr :=
  match decode (BitVec.ofNat 32 (w % 2 ^ nbits)) with
  | .ok i => some i
  | .error _ => none

end Sys2Proof
end

