-- ==== Sys2Proof/Calls.lean ====
section
/-! DEFINITION. The call level: the source's function calls, as a host may write them (R74 to R76). -/

namespace Sys2Proof

/-- A digit argument of a call (R17, R76): an integer, `off`, or a value of another type. -/
inductive DigitArg where
  | int (v : Int)
  | off
  | other
  deriving DecidableEq, Repr

/-- An LED argument of a call: a boolean, or a value of another type (R76). -/
inductive LedArg where
  | bool (on : Bool)
  | other
  deriving DecidableEq, Repr

/-- The source's call forms (R75, R76). `none` is an argument left out. -/
inductive Call where
  /-- `initialize(clear_leds, clear_digits)`. -/
  | init (clearLeds clearDigits : Option Bool)
  /-- `shutdown(clear_leds, clear_digits)`. -/
  | shutdown (clearLeds clearDigits : Option Bool)
  /-- `set_leds(led1 .. led6)`: position `k` of the vector is LED `k+1`. -/
  | setLeds (leds : Vector (Option LedArg) 6)
  /-- `set_digits(digit1 .. digit6)`: position `k` of the vector is digit `k+1`. -/
  | setDigits (digits : Vector (Option DigitArg) 6)
  /-- `load(chain, bits)`, with a sequence of any length. -/
  | load (c : ChainId) (bits : List Bool)
  /-- `enable(chain)`, also `UNBLANK`. -/
  | enable (c : ChainId)
  /-- `disable(chain)`, also `BLANK`. -/
  | disable (c : ChainId)
  /-- `pulse(line, rest_state, width)`, the width in microseconds. -/
  | pulse (line : Line) (rest : Bool) (width : Option Nat)
  /-- `encode_digit(value)`. -/
  | encodeDigit (v : DigitArg)
  deriving DecidableEq, Repr

end Sys2Proof
end

