-- ==== Sys2Proof/Config.lean ====
section
/-! DEFINITION. The parameters of a board, what the collaborator can answer, and the free values of the model: constants
with no body, of which nothing can be proved. -/

namespace Sys2Proof

/-- The levels of one chain's four lines (R23, R24). -/
structure LineLevels where
  ser : Level
  clk : Level
  lat : Level
  oe : Level
  deriving DecidableEq, Repr, Inhabited

/-- The parameters of a board that the spec leaves open (R10). Fixed for a run (R8). -/
structure Board where
  /-- `OE_ACTIVE_LEVEL` (R10): the level of an enable line that shows the chain's latched content. -/
  oeActive : Bool
  /-- `LED_DEPTH - 6` (R10): the stages of the LED chain beyond the six loaded ones, so that every value is legal. -/
  ledExtra : Nat
  /-- `T_PULSE` in microseconds (R9); no rule depends on it (R185). -/
  tPulse : Nat
  /-- `PIN_MAP` (R25): the pin of each line, by line number. -/
  pins : Vector Nat 8
  deriving DecidableEq, Repr

/-- The number of stages of a chain: `D_c` of R11. -/
def Board.depth (b : Board) : ChainId → Nat
  | .led => b.ledExtra + 6
  | .dig => 24

/-- One answer of the GPIO collaborator (R27 to R29): whether the call succeeds and, if not, the levels its failure branch
draws: `level` for a set, `led` and `dig` for a configure. -/
structure GpioDraw where
  ok : Bool
  level : Bool
  led : LineLevels
  dig : LineLevels
  deriving DecidableEq, Repr, Inhabited

/-- What a tube shows (R44). `other` stands for anything that is neither a numeral nor blank. -/
inductive Tube where
  | numeral (n : Fin 10)
  | blank
  | other (shape : Nat)
  deriving DecidableEq, Repr, Inhabited

namespace Config

/-- FREE VALUE (R41, R42; log 4, 5): bit `stage` of the draw with number `n`, for a chain whose inputs float. -/
opaque freeBit (n : Nat) (stage : Nat) : Bool

/-- FREE VALUE (R150; log 3): the host interrupt at the draw with number `n`. -/
opaque freeIrq (n : Nat) : Bool

/-- FREE VALUE (R27 to R29; log 3): the collaborator's answer at the draw with number `n`. -/
opaque freeGpio (n : Nat) : GpioDraw

/-- FREE VALUE (R40, R41; log 14): whether a chain with an undriven enable line shows OFF. It may depend on everything the
chain holds and on the count `n` of its shifts, latches and redraws, so that it stays until the next of them. -/
opaque freeVisOff (n : Nat) (c : ChainId) (sr st : List Bool) : Bool

/-- FREE VALUE (R40, R41; log 14): bit `stage` of what a chain with an undriven enable line shows. -/
opaque freeVisBit (n : Nat) (c : ChainId) (sr st : List Bool) (stage : Nat) : Bool

/-- FREE VALUE (R44; log 14): what tube `k` shows at a code 0xA to 0xE. -/
opaque freeTube (n : Nat) (k : Nat) (code : BitVec 4) : Tube

/-- OPEN (R10; log 6): the polarity of the enable lines. -/
opaque oeActiveLevel : Bool

/-- OPEN (R10; log 6): the stages of the LED chain beyond the sixth. -/
opaque ledExtra : Nat

/-- The board of `State.reset` (log 6): the polarity and the LED depth are left free; each line has the pin of its own
number, which is one injective map; `T_PULSE` is the nominal 100 microseconds of R9. -/
def board : Board :=
  { oeActive := oeActiveLevel, ledExtra := ledExtra, tPulse := 100, pins := #v[0, 1, 2, 3, 4, 5, 6, 7] }

/-- A drawn content of a chain with `d` stages, stage 1 first: the draw with number `n` (R41, R42). -/
def freeStages (n d : Nat) : List Bool := (List.range d).map (freeBit n)

end Config

end Sys2Proof
end

