-- ==== Sys2Proof/WellFormed.lean ====
section
/-! DEFINITION. What is well-formed. A term of `Instr` is well-formed by its type; what can be ill-formed is a board (its pin
map) and a call (its operands). -/

namespace Sys2Proof

/-- The load width of a chain: `W_c` of R9 and R11. -/
def loadWidth : ChainId → Nat
  | .led => 6
  | .dig => 24

/-- R25: no two lines on one pin. -/
def Board.wellFormed (b : Board) : Bool := decide b.pins.toList.Nodup

/-- An LED argument a word can express (R76). -/
def LedArg.wellFormed : LedArg → Bool
  | .bool _ => true
  | .other => false

/-- A digit argument a word can express (R76): every integer, and `off`. -/
def DigitArg.wellFormed : DigitArg → Bool
  | .int _ => true
  | .off => true
  | .other => false

/-- An argument left out takes its default, which is well-formed (R75). -/
def optWellFormed {α : Type} (p : α → Bool) : Option α → Bool
  | none => true
  | some a => p a

/-- The calls that have a word (R76, R100): operands of the right type, a load of the chain's own width, a pulse width of at
most 65535 microseconds. -/
def Call.wellFormed : Call → Bool
  | .init _ _ => true
  | .shutdown _ _ => true
  | .setLeds leds => leds.toList.all (optWellFormed LedArg.wellFormed)
  | .setDigits digits => digits.toList.all (optWellFormed DigitArg.wellFormed)
  | .load c bits => bits.length == loadWidth c
  | .enable _ => true
  | .disable _ => true
  | .pulse _ _ width => optWellFormed (fun n => decide (n ≤ 65535)) width
  | .encodeDigit v => v.wellFormed

end Sys2Proof
end

