-- ==== Sys2Proof/Machine/Operands.lean ====
section
/-! DEFINITION. Operands: bit sequences, digit fields, and the values of the decided parameters. -/

namespace Sys2Proof.Machine

/-- `seqOfField` (R13): a field as a bit sequence, most significant bit first. Its first element is shifted first. -/
def seqOfField {n : Nat} (b : BitVec n) : List Bool := (List.range n).map b.getMsbD

/-- The stages that hold a field: stage `s` holds bit `s - 1` (R46), stage 1 first. -/
def stagesOfField {n : Nat} (b : BitVec n) : List Bool := (List.range n).map b.getLsbD

/-- The field of a bit sequence: `fieldOfSeq` of R13, as a number. -/
def natOfSeq (s : List Bool) : Nat := s.foldl (fun v b => 2 * v + b.toNat) 0

/-- The level of a bit (R12, R14). -/
def levelOf (b : Bool) : Level := if b then .hi else .lo

/-- `INIT_LEVEL` (R10). -/
def initLevel : Bool := false

/-- `REST_CLK` (R10, R86). -/
def restClk : Bool := false

/-- `REST_LAT` (R10, R86). -/
def restLat : Bool := false

/-- The all-off pattern of each chain (R120): six zeros, twenty-four ones. -/
def allOff : ChainId → List Bool
  | .led => List.replicate (loadWidth .led) false
  | .dig => List.replicate (loadWidth .dig) true

/-- A Digit Value (R17): an integer or `off`. -/
inductive DigitValue where
  | int (v : Int)
  | off
  deriving DecidableEq, Repr

/-- A digit field as a Digit Value (R69). -/
def digitValue (v : BitVec 4) : DigitValue := if v = 0xF#4 then .off else .int v.toNat

/-- The encoder on Digit Values (R88): the code, first bit first, or `none` for `OUT_OF_RANGE`. -/
def enc : DigitValue → Option (List Bool)
  | .off => some [true, true, true, true]
  | .int v =>
    if 0 ≤ v ∧ v ≤ 9 then some [v.toNat.testBit 3, v.toNat.testBit 2, v.toNat.testBit 1, v.toNat.testBit 0] else none

/-- The encoder on digit fields (R89): `none` for `OUT_OF_RANGE`. -/
def encF (v : BitVec 4) : Option (BitVec 4) := if v ≤ 0x9#4 ∨ v = 0xF#4 then some v else none

/-- The field of digit `k`, 1 to 6: `G[4k-1 : 4k-4]` (R63). -/
def digitField (g : BitVec 24) (k : Nat) : BitVec 4 := g.extractLsb' (4 * k - 4) 4

/-- The codes of a list of digit fields in order, or `none` at the first that is out of range (R129). -/
def encodeFields : List (BitVec 4) → Option (List (BitVec 4))
  | [] => some []
  | v :: vs =>
    match encF v with
    | none => none
    | some code => (encodeFields vs).map (code :: ·)

/-- The bit sequence of `SET_DIGITS` (R130): the six fields are encoded in logical order 1 to 6, then the codes are joined
in the order 6 to 1, each most significant bit first. `none` for `OUT_OF_RANGE`. -/
def digitSequence (g : BitVec 24) : Option (List Bool) :=
  (encodeFields ([1, 2, 3, 4, 5, 6].map (digitField g))).map (fun codes => (codes.reverse.map seqOfField).flatten)

/-- The bit sequence of `SET_LEDS` (R125): the logical order 1 to 6, reversed. -/
def ledSequence (l : BitVec 6) : List Bool := ((List.range 6).map l.getLsbD).reverse

end Sys2Proof.Machine
end

