-- ==== Sys2Proof/Machine/State.lean ====
section
/-! DEFINITION. The state of the machine, the reasons a step can stop, and the state after reset. -/

namespace Sys2Proof.Machine

/-- Why a step ends in a fault. -/
inductive Fault where
  /-- `F_UNCONFIGURED` (R149), a member of `FAULTS`. `step` answers it when the controller, stopped for good by a fault that
  an earlier step recorded, would have to act. Safe: the spec gives no further step of the block. -/
  | unconfigured
  deriving DecidableEq, Repr

/-- Why a step is refused. -/
inductive Refusal where
  /-- An arm of `exec` without a meaning yet. No arm answers it in this model. Safe. -/
  | notModelled (mnemonic : String)
  /-- `step`, on a board whose pin map puts two lines on one pin, once the mark is set (R25, R154). Safe. -/
  | pinMap
  /-- `step`, where the host writes a command while `STATUS.BUSY` is 1: the host's duty, for which the spec gives no move
  (R164). Safe for the model, and a duty of every host. -/
  | commandWhileBusy
  deriving DecidableEq, Repr

/-- The errors a command can end with (R142). -/
inductive Err where
  | outOfRange
  | hwAccessFailure
  | hostInterrupt
  | illegalCommand
  deriving DecidableEq, Repr

/-- The inputs that set the mark `REFUSED` (R154). -/
inductive RefusedInput where
  /-- `REFUSED_PIN_MAP`. -/
  | pinMap
  /-- `REFUSED_LOAD_LENGTH`. -/
  | loadLength
  /-- `REFUSED_CALL_FORM`. -/
  | callForm
  /-- `REFUSED_REGISTER`. -/
  | register
  deriving DecidableEq, Repr

/-- The sequencer `SEQ` (R22, R33): idle, or a command word and the position of its next step. Position 0 is the decode;
position `p + 1` is the step with index `p` of the command's step list. `pending` is the error being carried while the
finally blocks around its raise point run (R152). -/
inductive SeqState where
  | idle
  | running (word : Word) (pos : Nat) (pending : Option Err)
  deriving DecidableEq, Repr

/-- One chain: its four lines (R23, R24), its shift stages `SR` and its storage stages `ST` (R31). Stage `s` is element
`s - 1` of the list, so stage 1, next to the serial-data input, is the head. `redraws`, the model's own, counts the chain's
shifts, latches and undriven redraws: what it shows while its enable line is at `Z` stays until the next of them (R41;
log 14). -/
structure Chain where
  lines : LineLevels
  sr : List Bool
  st : List Bool
  redraws : Nat
  deriving DecidableEq, Repr

/-- An entry of the trace of R165: a collaborator call, a hold, a draw at an abort point, or how a command ended (R141). -/
inductive TraceEvent where
  | configure (level : Bool) (ok : Bool)
  | set (line : Line) (level : Bool) (ok : Bool)
  | release (ok : Bool)
  | hold (micros : Nat) (interrupted : Bool)
  | abortPoint (interrupted : Bool)
  | ended (err : Option Err)
  | faulted (fault : Fault)
  | refused (input : RefusedInput)
  deriving DecidableEq, Repr

/-- An action of the host (R33, R164, R168) between two steps of the controller. -/
inductive HostEvent where
  /-- Write a command to `CMD` and wait until `STATUS.BUSY` is 0 (R172): the command runs to its end in one step. -/
  | command (w : Word)
  /-- Make a call of the source's interface, transcribed to a command (R75, R76), and wait likewise. -/
  | call (c : Call)
  /-- Write a host register and do not wait (R33). -/
  | write (reg : Nat) (v : Word)
  /-- Read a host register (R33). -/
  | read (reg : Nat)
  /-- Let the controller take its next step (R22). -/
  | tick
  /-- The reset input (R168). -/
  | reset
  deriving DecidableEq, Repr

/-- The coming draws of one kind: those listed, then `rest` for ever, or free values where `rest` is `none`. -/
structure Feed (α : Type) where
  listed : List α
  rest : Option α
  deriving DecidableEq, Repr

/-- The state (R20), the board's parameters, and the model's own fields. -/
structure State where
  /-- The board's parameters (R8, R10): no step changes them. -/
  cfg : Board
  /-- `CONFIGURED` (R26); `STATUS.CONF` is a copy (R34). -/
  configured : Bool
  /-- The LED chain. -/
  led : Chain
  /-- The Digit chain. -/
  dig : Chain
  /-- `STATUS.BUSY` (R34): written with `SEQ` (R33, R146, R148), but for a fault, which leaves it 1 (R149; log 10). -/
  busy : Bool
  /-- `STATUS.ERR` (R34, R142); `none` is `NONE`. -/
  err : Option Err
  /-- `RESULT` (R35). -/
  result : Word
  /-- `SEQ` (R22). -/
  seq : SeqState
  /-- `FAULTS` (R36): a set, kept as a list with no repeats. -/
  faults : List Fault
  /-- `REFUSED` (R36): the mark is set when the list is not empty; it names what was refused. -/
  refused : List RefusedInput
  /-- The model's own: the host's coming actions, oldest first. -/
  host : List HostEvent
  /-- The model's own: the registers the host has read and what it got, oldest first. -/
  reads : List (Nat × Word)
  /-- The model's own: the coming draws at abort points (R150). -/
  irq : Feed Bool
  /-- The model's own: the coming answers of the collaborator (R27 to R29). -/
  gpio : Feed GpioDraw
  /-- The model's own: how many draws have been made. -/
  draws : Nat
  /-- The model's own: the trace (R165), oldest first. -/
  trace : List TraceEvent
  deriving DecidableEq, Repr

/-- Four lines that nothing drives. -/
def undrivenLines : LineLevels := { ser := .z, clk := .z, lat := .z, oe := .z }

/-- The machine right after power-up on board `b` (R20, R169): nothing configured, every line undriven, `STATUS` and `RESULT`
zero, `SEQ` idle, the content of the chains drawn (R42). -/
def State.powerUp (b : Board) : State :=
  { cfg := b
    configured := false
    led :=
      { lines := undrivenLines
        sr := Config.freeStages 0 (b.depth .led)
        st := Config.freeStages 1 (b.depth .led)
        redraws := 0 }
    dig :=
      { lines := undrivenLines
        sr := Config.freeStages 2 (b.depth .dig)
        st := Config.freeStages 3 (b.depth .dig)
        redraws := 0 }
    busy := false
    err := none
    result := 0
    seq := .idle
    faults := []
    refused := []
    host := []
    reads := []
    irq := { listed := [], rest := none }
    gpio := { listed := [], rest := none }
    draws := 4
    trace := [] }

/-- The machine right after reset, as the host starts it: power-up on the board of `Config.board`. -/
def State.reset : State := State.powerUp Config.board

end Sys2Proof.Machine
end

