-- ==== Sys2Proof/Machine/CallForms.lean ====
section
/-! DEFINITION. The call level: each call's defaults and its command word, or why it is refused (R74 to R76, R100, R154). -/

namespace Sys2Proof.Machine

/-- The digit field of an argument (R74 to R76): left out and `off` are 0xF; an integer outside 0 to 14 is 0xA, which any
integer outside 0 to 9 is like; `none` for another type. -/
def digitFieldOfArg : Option DigitArg → Option (BitVec 4)
  | none => some 0xF#4
  | some .off => some 0xF#4
  | some (.int v) => if 0 ≤ v ∧ v ≤ 14 then some (BitVec.ofNat 4 v.toNat) else some 0xA#4
  | some .other => none

/-- The bit of an LED argument (R75): left out is off; `none` for another type. -/
def ledBitOfArg : Option LedArg → Option Bool
  | none => some false
  | some (.bool on) => some on
  | some .other => none

/-- The values of all arguments, or `none` if one has none. -/
def allSome {α : Type} : List (Option α) → Option (List α)
  | [] => some []
  | none :: _ => none
  | some a :: rest => (allSome rest).map (a :: ·)

/-- The field with position 1 lowest: `Σ_k (v_k << n(k-1))` of R74, for `n`-bit positions. -/
def packLow (n : Nat) : List Nat → Nat
  | [] => 0
  | v :: vs => v + 2 ^ n * packLow n vs

/-- The command of a call (R74, R75), or why it is refused (R76, R100, R154). -/
def transcribe : Call → Except RefusedInput Instr
  | .init cl cd => .ok (.init (cl.getD true) (cd.getD true))
  | .shutdown cl cd => .ok (.shutdown (cl.getD true) (cd.getD true))
  | .setLeds leds =>
    match allSome (leds.toList.map ledBitOfArg) with
    | none => .error .callForm
    | some bits => .ok (.setLeds (BitVec.ofNat 6 (packLow 1 (bits.map Bool.toNat))))
  | .setDigits digits =>
    match allSome (digits.toList.map digitFieldOfArg) with
    | none => .error .callForm
    | some fields => .ok (.setDigits (BitVec.ofNat 24 (packLow 4 (fields.map BitVec.toNat))))
  | .load .led bits =>
    if bits.length = loadWidth .led then .ok (.loadLed (BitVec.ofNat 6 (natOfSeq bits))) else .error .loadLength
  | .load .dig bits =>
    if bits.length = loadWidth .dig then .ok (.loadDig (BitVec.ofNat 24 (natOfSeq bits))) else .error .loadLength
  | .enable c => .ok (.enable c)
  | .disable c => .ok (.disable c)
  | .pulse line rest none => .ok (.pulse line rest 0)
  | .pulse line rest (some micros) =>
    if micros ≤ 65535 then .ok (.pulse line rest (BitVec.ofNat 16 micros)) else .error .callForm
  | .encodeDigit v =>
    match digitFieldOfArg (some v) with
    | none => .error .callForm
    | some f => .ok (.encodeDigit f)

/-- The word of a call (R75). -/
def callWord (c : Call) : Except RefusedInput Word := (transcribe c).map encode

end Sys2Proof.Machine
end

