-- ==== Sys2Proof/Machine/Ops.lean ====
section
/-! DEFINITION. The named operations: the lines, the chains' reaction to them, the draws, the collaborator's three calls, the
fault, and the reset event. -/

namespace Sys2Proof.Machine

/-! ### Lines and chains -/

/-- The level of one of a chain's four lines (R23). -/
def levelAt (l : LineLevels) : LineFn → Level
  | .ser => l.ser
  | .clk => l.clk
  | .lat => l.lat
  | .oe => l.oe

/-- The four levels with one of them replaced. -/
def withLevel (l : LineLevels) (f : LineFn) (v : Level) : LineLevels :=
  match f with
  | .ser => { l with ser := v }
  | .clk => { l with clk := v }
  | .lat => { l with lat := v }
  | .oe => { l with oe := v }

/-- A chain of the state. -/
def State.chain (s : State) : ChainId → Chain
  | .led => s.led
  | .dig => s.dig

/-- The state with one chain replaced. -/
def State.setChain (s : State) (c : ChainId) (x : Chain) : State :=
  match c with
  | .led => { s with led := x }
  | .dig => { s with dig := x }

/-- `line[L]` (R14). -/
def State.line (s : State) (l : Line) : Level := levelAt (s.chain l.chain).lines l.fn

/-- The eight lines in the order of their numbers (R23). -/
def allLines : List Line :=
  [⟨.led, .ser⟩, ⟨.led, .clk⟩, ⟨.led, .lat⟩, ⟨.led, .oe⟩, ⟨.dig, .ser⟩, ⟨.dig, .clk⟩, ⟨.dig, .lat⟩, ⟨.dig, .oe⟩]

/-- The state with a line at a new level, and nothing else changed. -/
def State.setLine (s : State) (l : Line) (v : Level) : State :=
  s.setChain l.chain { s.chain l.chain with lines := withLevel (s.chain l.chain).lines l.fn v }

/-- `UndrivenHavoc` (R41): the chain's shift and storage stages take drawn values. -/
def undrivenHavoc (c : ChainId) (s : State) : State :=
  { s.setChain c { s.chain c with
      sr := Config.freeStages s.draws (s.cfg.depth c)
      st := Config.freeStages (s.draws + 1) (s.cfg.depth c)
      redraws := (s.chain c).redraws + 1 } with
    draws := s.draws + 2 }

/-- One bit into stage 1, every stage one on, the last one lost (R37). -/
def shiftIn (c : ChainId) (b : Bool) (s : State) : State :=
  s.setChain c { s.chain c with
    sr := (b :: (s.chain c).sr).take (s.cfg.depth c)
    redraws := (s.chain c).redraws + 1 }

/-- `Shift` (R37). A serial-data line that nothing drives floats, and the bit it gives is a free value (log 13). -/
def shift (c : ChainId) (s : State) : State :=
  match (s.chain c).lines.ser with
  | .lo => shiftIn c false s
  | .hi => shiftIn c true s
  | .z => { shiftIn c (Config.freeBit s.draws 0) s with draws := s.draws + 1 }

/-- `Latch` (R38). -/
def latch (c : ChainId) (s : State) : State :=
  s.setChain c { s.chain c with st := (s.chain c).sr, redraws := (s.chain c).redraws + 1 }

/-- `ChainEvent` (R39): the active edge is the rising edge. -/
def chainEvent (l : Line) (old new : Level) (s : State) : State :=
  if old = .z ∨ new = .z then undrivenHavoc l.chain s
  else if old = new then s
  else if l.fn = .clk ∧ old = .lo ∧ new = .hi then shift l.chain s
  else if l.fn = .lat ∧ old = .lo ∧ new = .hi then latch l.chain s
  else s

/-- A line takes a level, and its chain reacts: the lines `old <- line[L]; line[L] <- v; ChainEvent(L, old, v)` of R27 to
R29. -/
def driveLine (l : Line) (v : Level) (s : State) : State := chainEvent l (s.line l) v (s.setLine l v)

/-- The eight lines take levels one after another, in line order (R27, R29, R49). -/
def driveAll (f : Line → Level) (s : State) : State := allLines.foldl (fun s l => driveLine l (f l) s) s

/-! ### Draws -/

/-- The next draw of a feed, where `free` is the free value it has if nothing is listed. -/
def Feed.now {α : Type} (f : Feed α) (free : α) : α :=
  match f.listed with
  | a :: _ => a
  | [] => f.rest.getD free

/-- The feed after a draw. -/
def Feed.after {α : Type} (f : Feed α) : Feed α := { f with listed := f.listed.tail }

/-- The host interrupt at this abort point (R150). -/
def State.irqNow (s : State) : Bool := s.irq.now (Config.freeIrq s.draws)

/-- The state after the draw at an abort point. -/
def State.afterIrq (s : State) : State := { s with irq := s.irq.after, draws := s.draws + 1 }

/-- The collaborator's answer to this call (R27 to R29). -/
def State.gpioNow (s : State) : GpioDraw := s.gpio.now (Config.freeGpio s.draws)

/-- The state after the draw of a collaborator call. -/
def State.afterGpio (s : State) : State := { s with gpio := s.gpio.after, draws := s.draws + 1 }

/-- The state with one more entry of the trace (R165). -/
def State.emit (s : State) (e : TraceEvent) : State := { s with trace := s.trace ++ [e] }

/-! ### Faults and refusals -/

/-- `fault F` (R149): the fault is recorded for good, and `SEQ` returns to idle (R22). `STATUS` is not written, so `BUSY` stays
as it is (log 10). -/
def State.recordFault (s : State) (f : Fault) : State :=
  { s with
    seq := .idle
    faults := if f ∈ s.faults then s.faults else s.faults ++ [f]
    trace := s.trace ++ [.faulted f] }

/-- A refused input sets the mark, and the block takes no step (R154). -/
def State.refuse (s : State) (r : RefusedInput) : State :=
  { s with refused := if r ∈ s.refused then s.refused else s.refused ++ [r], trace := s.trace ++ [.refused r] }

/-! ### The collaborator -/

/-- How a piece of a command ends: it ran, it raised an error, or it faulted (R141). -/
inductive Exit where
  | done (s : State)
  | raised (e : Err) (s : State)
  | faulted (s : State)
  deriving DecidableEq, Repr

/-- `GpioConfigure(v)` (R27). -/
def gpioConfigure (v : Bool) (s : State) : Exit :=
  if s.gpioNow.ok then
    .done (State.emit { driveAll (fun _ => levelOf v) s.afterGpio with configured := true } (.configure v true))
  else
    .raised .hwAccessFailure
      (State.emit { driveAll (fun l => levelAt (match l.chain with | .led => s.gpioNow.led | .dig => s.gpioNow.dig) l.fn) s.afterGpio
        with configured := false } (.configure v false))

/-- `GpioSet(L, v)` (R28). -/
def gpioSet (l : Line) (v : Bool) (s : State) : Exit :=
  if s.configured = false then .faulted (s.recordFault .unconfigured)
  else if s.gpioNow.ok then .done ((driveLine l (levelOf v) s.afterGpio).emit (.set l v true))
  else .raised .hwAccessFailure ((driveLine l (levelOf s.gpioNow.level) s.afterGpio).emit (.set l v false))

/-- The state a `GpioRelease` leaves, whatever the collaborator reports (R29). -/
def releaseLines (s : State) : State :=
  State.emit { driveAll (fun _ => .z) s.afterGpio with configured := false } (.release s.gpioNow.ok)

/-- `GpioRelease()` (R29). -/
def gpioRelease (s : State) : Exit :=
  if s.gpioNow.ok then .done (releaseLines s) else .raised .hwAccessFailure (releaseLines s)

/-- `Hold(t)` (R84): a blocking wait with one abort point, which changes nothing but the trace. -/
def hold (micros : Nat) (s : State) : Exit :=
  if s.irqNow then .raised .hostInterrupt (s.afterIrq.emit (.hold micros true))
  else .done (s.afterIrq.emit (.hold micros false))

/-- `AbortPoint()` (R150). -/
def abortPoint (s : State) : Exit :=
  if s.irqNow then .raised .hostInterrupt (s.afterIrq.emit (.abortPoint true))
  else .done (s.afterIrq.emit (.abortPoint false))

/-! ### Reset -/

/-- `Reset()` (R169, R170): a running command is abandoned without its finally blocks and without an `ERR`; every line goes
to `Z`, one after another, and its chain takes drawn content. `FAULTS`, `REFUSED` and the board stay (R171). -/
def resetEvent (s : State) : State :=
  { driveAll (fun _ => .z) s with configured := false, busy := false, err := none, result := 0, seq := .idle }

end Sys2Proof.Machine
end

