-- ==== Sys2Proof/Machine/Flags.lean ====
section
/-! DEFINITION. The host-visible registers as words, and how the end of a command writes `STATUS` (R33 to R35, R142, R146,
R148). -/

namespace Sys2Proof.Machine

/-- The code of an error (R142). -/
def errCode : Option Err → BitVec 4
  | none => 0#4
  | some .outOfRange => 1#4
  | some .hwAccessFailure => 2#4
  | some .hostInterrupt => 3#4
  | some .illegalCommand => 4#4

/-- `STATUS` (R34): `ERR` in bits 7 to 4, `BUSY` in bit 1, `CONF` in bit 0, every other bit 0. -/
def State.status (s : State) : Word :=
  0#24 ++ errCode s.err ++ 0#2 ++ BitVec.ofBool s.busy ++ BitVec.ofBool s.configured

/-- `REFUSED` (R36). -/
def State.refusedMark (s : State) : Bool := !s.refused.isEmpty

/-- What a host read of a register gives (R33); `none` above register 2. -/
def State.readReg (s : State) (reg : Nat) : Option Word :=
  match reg with
  | 0 => some 0
  | 1 => some s.status
  | 2 => some s.result
  | _ => none

/-- `RESULT <- zext_32(code)` (R90). -/
def State.writeResult (s : State) (code : BitVec 4) : State := { s with result := code.setWidth 32 }

/-- The end of a command: `STATUS.ERR` takes the code, `BUSY` goes to 0 and `SEQ` to idle (R146 step 2 with an error, R148
without one). Nothing is rolled back. -/
def State.endCommand (s : State) (e : Option Err) : State :=
  { s with busy := false, err := e, seq := .idle, trace := s.trace ++ [.ended e] }

/-- The end of a command's run: success, error or fault (R141). -/
def finish : Exit → State
  | .done s => s.endCommand none
  | .raised e s => s.endCommand (some e)
  | .faulted s => s

end Sys2Proof.Machine
end

