-- ==== Sys2Proof/Machine/Program.lean ====
section
/-! DEFINITION. The pseudocode of a command: its steps, straight-line order and finally blocks; how it runs; and its list of
steps by position. -/

namespace Sys2Proof.Machine

/-- One step of a command (R22): a collaborator call, a hold or an abort point. -/
inductive Op where
  | configure (v : Bool)
  | set (l : Line) (v : Bool)
  | release
  | hold (micros : Nat)
  | abort
  deriving DecidableEq, Repr

/-- What a step does. -/
def runOp : Op → State → Exit
  | .configure v, s => gpioConfigure v s
  | .set l v, s => gpioSet l v s
  | .release, s => gpioRelease s
  | .hold t, s => hold t s
  | .abort, s => abortPoint s

/-- A command's pseudocode. `guarded a b` is `try { a } finally { b }`; both finally blocks of the spec are one collaborator
call (R152). -/
inductive Prog where
  | skip
  | op (o : Op)
  | seq (a b : Prog)
  | guarded (a : Prog) (b : Op)
  deriving DecidableEq, Repr

/-- Pieces of pseudocode one after another. -/
def block : List Prog → Prog
  | [] => .skip
  | p :: ps => .seq p (block ps)

/-- Runs pseudocode: an error skips what follows (R146), but for the finally blocks around it, innermost first (R152); an error in
a finally block replaces the one that was propagating (R153); a fault stops at once (R149). -/
def runProg : Prog → State → Exit
  | .skip, s => .done s
  | .op o, s => runOp o s
  | .seq a b, s =>
    match runProg a s with
    | .done s' => runProg b s'
    | .raised e s' => .raised e s'
    | .faulted s' => .faulted s'
  | .guarded a b, s =>
    match runProg a s with
    | .done s' => runOp b s'
    | .raised e s' =>
      match runOp b s' with
      | .done s'' => .raised e s''
      | .raised e' s'' => .raised e' s''
      | .faulted s'' => .faulted s''
    | .faulted s' => .faulted s'

/-- A step of a command's list: what it does, and the index of the finally step that an error raised here, or carried through
here, goes to; `none` where no finally block is around it. -/
structure Step where
  op : Op
  onError : Option Nat
  deriving DecidableEq, Repr

/-- The number of steps of pseudocode. -/
def stepCount : Prog → Nat
  | .skip => 0
  | .op _ => 1
  | .seq a b => stepCount a + stepCount b
  | .guarded a _ => stepCount a + 1

/-- The list of steps in program order (R22), the first of them with index `base`, inside a finally block at index `outer`. -/
def stepList : Prog → (base : Nat) → (outer : Option Nat) → List Step
  | .skip, _, _ => []
  | .op o, _, outer => [{ op := o, onError := outer }]
  | .seq a b, base, outer => stepList a base outer ++ stepList b (base + stepCount a) outer
  | .guarded a b, base, outer => stepList a base (some (base + stepCount a)) ++ [{ op := b, onError := outer }]

/-- How a command starts, after its checks in the order of R155: it faults, it raises an error with nothing done, or it goes
on with pseudocode from a state. -/
inductive Plan where
  | fault
  | raise (e : Err)
  | go (s : State) (p : Prog)
  deriving DecidableEq, Repr

/-- The configuration check of a line-touching command (R149). -/
def ifConfigured (s : State) (plan : Plan) : Plan := if s.configured then plan else .fault

/-- Runs a command from its start to its end. -/
def runPlan (plan : Plan) (s : State) : State :=
  match plan with
  | .fault => s.recordFault .unconfigured
  | .raise e => s.endCommand (some e)
  | .go s' p => finish (runProg p s')

end Sys2Proof.Machine
end

