-- ==== Sys2Proof/Machine/Encoder.lean ====
section
/-! DEFINITION. The Digit Encoder: `ENCODE_DIGIT` (41_digit_encoder.md). -/

namespace Sys2Proof.Machine

/-- The start, and the whole, of `ENCODE_DIGIT` (R90): no configuration check, no step that touches a line. -/
def planEncodeDigit (v : BitVec 4) (s : State) : Plan :=
  match encF v with
  | none => .raise .outOfRange
  | some code => .go (s.writeResult code) .skip

/-- `ENCODE_DIGIT` (R90). -/
def execEncodeDigit (v : BitVec 4) (s : State) : Host.Outcome State Fault Refusal :=
  .next (runPlan (planEncodeDigit v s) s)

end Sys2Proof.Machine
end

