-- ==== Sys2Proof/Machine/Pulse.lean ====
section
/-! DEFINITION. The Pulse Generator: `PULSE` (40_pulse_generator.md). -/

namespace Sys2Proof.Machine

/-- `PulseLine(L, r, t)` (R80): the cleanup covers the hold alone. -/
def pulseLine (l : Line) (rest : Bool) (micros : Nat) : Prog :=
  .seq (.op (.set l (!rest))) (.guarded (.op (.hold micros)) (.set l rest))

/-- The width of a `PULSE` in microseconds: 0 stands for `T_PULSE` (R81). -/
def pulseWidth (b : Board) (width : BitVec 16) : Nat := if width = 0 then b.tPulse else width.toNat

/-- The pseudocode of `PULSE` after its check (R81). -/
def progPulse (b : Board) (line : Line) (rest : Bool) (width : BitVec 16) : Prog :=
  block [.op .abort, pulseLine line rest (pulseWidth b width)]

/-- The start of `PULSE` (R81). -/
def planPulse (line : Line) (rest : Bool) (width : BitVec 16) (s : State) : Plan :=
  ifConfigured s (.go s (progPulse s.cfg line rest width))

/-- `PULSE` (R81). -/
def execPulse (line : Line) (rest : Bool) (width : BitVec 16) (s : State) : Host.Outcome State Fault Refusal :=
  .next (runPlan (planPulse line rest width s) s)

end Sys2Proof.Machine
end

