-- ==== Sys2Proof/Machine/Loader.lean ====
section
/-! DEFINITION. The Shift-Register Loader: `LOAD` (42_shift_register_loader.md). -/

namespace Sys2Proof.Machine

/-- `LoadSeq(c, s)` (R98): each bit is set and clocked in, first element first; then one latch pulse. -/
def loadSeq (micros : Nat) (c : ChainId) : List Bool → Prog
  | [] => pulseLine ⟨c, .lat⟩ restLat micros
  | b :: bs =>
    block [.op (.set ⟨c, .ser⟩ b), .op .abort, pulseLine ⟨c, .clk⟩ restClk micros, .op .abort, loadSeq micros c bs]

/-- The pseudocode of a load after its check (R99). -/
def progLoad (b : Board) (c : ChainId) (bits : List Bool) : Prog := block [.op .abort, loadSeq b.tPulse c bits]

/-- The start of `LOAD` (R99). -/
def planLoad (c : ChainId) (bits : List Bool) (s : State) : Plan := ifConfigured s (.go s (progLoad s.cfg c bits))

/-- `LOAD led` (R99). -/
def execLoadLed (b : BitVec 6) (s : State) : Host.Outcome State Fault Refusal :=
  .next (runPlan (planLoad .led (seqOfField b) s) s)

/-- `LOAD dig` (R99). -/
def execLoadDig (b : BitVec 24) (s : State) : Host.Outcome State Fault Refusal :=
  .next (runPlan (planLoad .dig (seqOfField b) s) s)

end Sys2Proof.Machine
end

