-- ==== Sys2Proof/Machine/Output.lean ====
section
/-! DEFINITION. The Output Controller: `ENABLE` and `DISABLE` (43_output_controller.md). -/

namespace Sys2Proof.Machine

/-- `enable(chain)`: the enable line goes to its active level (R112). -/
def setEnable (b : Board) (c : ChainId) : Prog := .op (.set ⟨c, .oe⟩ b.oeActive)

/-- `disable(chain)`: the enable line goes to its inactive level (R113). -/
def setDisable (b : Board) (c : ChainId) : Prog := .op (.set ⟨c, .oe⟩ (!b.oeActive))

/-- The start of `ENABLE` (R112). -/
def planEnable (c : ChainId) (s : State) : Plan := ifConfigured s (.go s (block [.op .abort, setEnable s.cfg c]))

/-- The start of `DISABLE` (R113). -/
def planDisable (c : ChainId) (s : State) : Plan := ifConfigured s (.go s (block [.op .abort, setDisable s.cfg c]))

/-- `ENABLE` (R112). -/
def execEnable (c : ChainId) (s : State) : Host.Outcome State Fault Refusal := .next (runPlan (planEnable c s) s)

/-- `DISABLE` (R113). -/
def execDisable (c : ChainId) (s : State) : Host.Outcome State Fault Refusal := .next (runPlan (planDisable c s) s)

end Sys2Proof.Machine
end

