-- ==== Sys2Proof/Machine/Facade.lean ====
section
/-! DEFINITION. The Board Facade: `INITIALIZE`, `SET_LEDS`, `SET_DIGITS`, `SHUTDOWN` (44_board_facade.md). -/

namespace Sys2Proof.Machine

/-- Pseudocode under a condition that the command's operands decide. -/
def onlyIf (c : Bool) (p : Prog) : Prog := if c then p else .skip

/-- A chain's clear, with the abort point after it (R121, R135). -/
def clearChain (b : Board) (c : ChainId) : Prog := block [loadSeq b.tPulse c (allOff c), .op .abort]

/-- The clear and enable of one requested chain in `INITIALIZE` (R121). -/
def clearAndEnable (b : Board) (c : ChainId) : Prog := block [clearChain b c, setEnable b c, .op .abort]

/-- The pseudocode of `INITIALIZE` (R121): the LED chain first. DEDUCED (log 25): R176 lists `INITIALIZE` among the commands whose
load a clock or latch left at 1 spoils, but R121 sets every line to 0 in the configure, before its loads, and this follows R121
and the end state of R122: all bits shift, and the latch happens. -/
def progInit (b : Board) (cl cd : Bool) : Prog :=
  block [.op .abort, .op (.configure initLevel), .op .abort,
    onlyIf cl (clearAndEnable b .led), onlyIf cd (clearAndEnable b .dig)]

/-- The start of `INITIALIZE` (R121): it has no configuration check. -/
def planInit (cl cd : Bool) (s : State) : Plan := .go s (progInit s.cfg cl cd)

/-- `INITIALIZE` (R121). -/
def execInit (cl cd : Bool) (s : State) : Host.Outcome State Fault Refusal := .next (runPlan (planInit cl cd s) s)

/-- The disable of one requested chain in `SHUTDOWN`, with the abort point after it (R135). -/
def blankChain (b : Board) (c : ChainId) : Prog := block [setDisable b c, .op .abort]

/-- The `try` body of `SHUTDOWN` (R135): all disables before the first clear (R136). -/
def shutdownBody (b : Board) (cl cd : Bool) : Prog :=
  block [.op .abort, onlyIf cl (blankChain b .led), onlyIf cd (blankChain b .dig),
    onlyIf cl (clearChain b .led), onlyIf cd (clearChain b .dig)]

/-- The pseudocode of `SHUTDOWN` after its check (R135): the release always runs. -/
def progShutdown (b : Board) (cl cd : Bool) : Prog := .guarded (shutdownBody b cl cd) .release

/-- The start of `SHUTDOWN` (R135). -/
def planShutdown (cl cd : Bool) (s : State) : Plan := ifConfigured s (.go s (progShutdown s.cfg cl cd))

/-- `SHUTDOWN` (R135). -/
def execShutdown (cl cd : Bool) (s : State) : Host.Outcome State Fault Refusal :=
  .next (runPlan (planShutdown cl cd s) s)

/-- The start of `SET_LEDS` (R125). -/
def planSetLeds (l : BitVec 6) (s : State) : Plan := ifConfigured s (.go s (progLoad s.cfg .led (ledSequence l)))

/-- `SET_LEDS` (R125). -/
def execSetLeds (l : BitVec 6) (s : State) : Host.Outcome State Fault Refusal := .next (runPlan (planSetLeds l s) s)

/-- The start of `SET_DIGITS` (R130): the configuration check, then the validation of all six digits (R129, R155). -/
def planSetDigits (g : BitVec 24) (s : State) : Plan :=
  ifConfigured s
    (match digitSequence g with
    | none => .raise .outOfRange
    | some bits => .go s (progLoad s.cfg .dig bits))

/-- `SET_DIGITS` (R130). -/
def execSetDigits (g : BitVec 24) (s : State) : Host.Outcome State Fault Refusal :=
  .next (runPlan (planSetDigits g s) s)

end Sys2Proof.Machine
end

