-- ==== Sys2Proof/Machine/Dispatch.lean ====
section
/-! DEFINITION. The dispatch: one arm per constructor of `Instr`. -/

namespace Sys2Proof.Machine

-- Each arm is one direct call of the instruction's meaning. A meaning does not look at SEQ, FAULTS or the host's
-- actions: step does, before it calls exec.
def exec (i : Instr) (s : State) : Host.Outcome State Fault Refusal :=
  match i with
  | .init cl cd => Sys2Proof.Machine.execInit cl cd s
  | .shutdown cl cd => Sys2Proof.Machine.execShutdown cl cd s
  | .setLeds l => Sys2Proof.Machine.execSetLeds l s
  | .setDigits g => Sys2Proof.Machine.execSetDigits g s
  | .loadLed b => Sys2Proof.Machine.execLoadLed b s
  | .loadDig b => Sys2Proof.Machine.execLoadDig b s
  | .enable c => Sys2Proof.Machine.execEnable c s
  | .disable c => Sys2Proof.Machine.execDisable c s
  | .pulse line rest width => Sys2Proof.Machine.execPulse line rest width s
  | .encodeDigit v => Sys2Proof.Machine.execEncodeDigit v s

end Sys2Proof.Machine
end

