-- ==== Sys2Proof/Machine/Sequencer.lean ====
section
/-! DEFINITION. The sequencer: a command one step at a time (R22, R33). -/

namespace Sys2Proof.Machine

/-- How a command starts (R155). -/
def planOf : Instr → State → Plan
  | .init cl cd, s => planInit cl cd s
  | .shutdown cl cd, s => planShutdown cl cd s
  | .setLeds l, s => planSetLeds l s
  | .setDigits g, s => planSetDigits g s
  | .loadLed b, s => planLoad .led (seqOfField b) s
  | .loadDig b, s => planLoad .dig (seqOfField b) s
  | .enable c, s => planEnable c s
  | .disable c, s => planDisable c s
  | .pulse line rest width, s => planPulse line rest width s
  | .encodeDigit v, s => planEncodeDigit v s

/-- The pseudocode of a command once its checks have passed: it depends on the board and the operands alone. -/
def progOf (b : Board) : Instr → Prog
  | .init cl cd => progInit b cl cd
  | .shutdown cl cd => progShutdown b cl cd
  | .setLeds l => progLoad b .led (ledSequence l)
  | .setDigits g => progLoad b .dig ((digitSequence g).getD [])
  | .loadLed v => progLoad b .led (seqOfField v)
  | .loadDig v => progLoad b .dig (seqOfField v)
  | .enable c => block [.op .abort, setEnable b c]
  | .disable c => block [.op .abort, setDisable b c]
  | .pulse line rest width => progPulse b line rest width
  | .encodeDigit _ => .skip

/-- A command begins: `SEQ <- (w, 0)`, and `BUSY` reads 1 from then on (R33). -/
def State.issue (s : State) (w : Word) : State := { s with busy := true, seq := .running w 0 none }

/-- The sequencer goes on at the step with index `p`, or the command ends if its list has no such step. -/
def goOn (w : Word) (steps : List Step) (p : Nat) (pending : Option Err) (s : State) : State :=
  if p < steps.length then { s with seq := .running w (p + 1) pending } else s.endCommand pending

/-- An error is raised or carried on (R146, R152): to the finally step around it, or to the end of the command. -/
def carry (w : Word) (steps : List Step) (onError : Option Nat) (e : Err) (s : State) : State :=
  match onError with
  | some p => goOn w steps p (some e) s
  | none => s.endCommand (some e)

/-- The step with index `p` runs, and the sequencer moves on (R22). In a finally step with an error pending, success carries
that error on, and a new error replaces it (R153). -/
def runStep (w : Word) (steps : List Step) (p : Nat) (pending : Option Err) (s : State) : State :=
  match steps[p]? with
  | none => s.endCommand pending
  | some st =>
    match runOp st.op s, pending with
    | .done s', none => goOn w steps (p + 1) none s'
    | .done s', some e => carry w steps st.onError e s'
    | .raised e s', _ => carry w steps st.onError e s'
    | .faulted s', _ => s'

/-- Position 0 of a command: decode, configuration check, validation, and what the command does before its first counted step
(R33, R73, R155). -/
def startCommand (w : Word) (s : State) : State :=
  match decode w with
  | .error _ => s.endCommand (some .illegalCommand)
  | .ok i =>
    match planOf i s with
    | .fault => s.recordFault .unconfigured
    | .raise e => s.endCommand (some e)
    | .go s' p => goOn w (stepList p 0 none) 0 none s'

/-- One step of the controller (R22): nothing while it is idle. -/
def tick (s : State) : State :=
  match s.seq with
  | .idle => s
  | .running w 0 _ => startCommand w s
  | .running w (p + 1) pending =>
    match decode w with
    | .error _ => s.endCommand (some .illegalCommand)
    | .ok i => runStep w (stepList (progOf s.cfg i) 0 none) p pending s

end Sys2Proof.Machine
end

