-- ==== Sys2Proof/Machine/Port.lean ====
section
/-! DEFINITION. The host's side: what each of its actions does (R33, R164, R168), and the fetch of a command. -/

namespace Sys2Proof.Machine

/-- A command from its issue to its end (R33, R139): an illegal word ends it in the decoder (R147), and every other is executed. -/
def runCommand (w : Word) (s : State) : Host.Outcome State Fault Refusal :=
  match decode w with
  | .ok i => exec i (s.issue w)
  | .error _ => .next ((s.issue w).endCommand (some .illegalCommand))

/-- Something that needs the controller idle and not stopped: after a fault it takes no step (R149), and while it is busy a
command has no move (R33, R164). -/
def ifReady (s : State) (k : Host.Outcome State Fault Refusal) : Host.Outcome State Fault Refusal :=
  if s.faults ≠ [] then .fault .unconfigured
  else if s.busy = false ∧ s.seq = .idle then k
  else .refused .commandWhileBusy

/-- A write of a host register (R33): only `CMD` takes it; a number above 2 is refused (R154). -/
def writeRegister (reg : Nat) (v : Word) (s : State) : Host.Outcome State Fault Refusal :=
  match reg with
  | 0 => ifReady s (.next (s.issue v))
  | 1 => .next s
  | 2 => .next s
  | _ => .next (s.refuse .register)

/-- A read of a host register (R33); a number above 2 is refused (R154). -/
def readRegister (reg : Nat) (s : State) : Host.Outcome State Fault Refusal :=
  match s.readReg reg with
  | some v => .next { s with reads := s.reads ++ [(reg, v)] }
  | none => .next (s.refuse .register)

/-- What an action of the host does. -/
def hostAction : HostEvent → State → Host.Outcome State Fault Refusal
  | .command w, s => ifReady s (runCommand w s)
  | .call c, s =>
    ifReady s
      (match callWord c with
      | .ok w => runCommand w s
      | .error r => .next (s.refuse r))
  | .write reg v, s => writeRegister reg v s
  | .read reg, s => readRegister reg s
  | .tick, s => if s.faults ≠ [] then .fault .unconfigured else .next (tick s)
  | .reset, s => .next (resetEvent s)

/-- The host's next action, and the state in which it is no longer to come. With nothing listed the controller has its turn. -/
def State.nextAction (s : State) : HostEvent × State :=
  match s.host with
  | [] => (.tick, s)
  | e :: es => (e, { s with host := es })

/-- A board with two lines on one pin (R25, R154): the mark is set, and the block takes no step. -/
def refuseBoard (s : State) : Host.Outcome State Fault Refusal :=
  if .pinMap ∈ s.refused then .refused .pinMap else .next (s.refuse .pinMap)

/-- One step of the machine: a refused board, or the host's next action. -/
def machineStep (s : State) : Host.Outcome State Fault Refusal :=
  if s.cfg.wellFormed then hostAction s.nextAction.1 s.nextAction.2 else refuseBoard s

/-- The state in which the host's very next action is the command `w` and the controller is ready for it. -/
def State.withCommand (s : State) (w : Word) : State := { s with host := .command w :: s.host, busy := false, seq := .idle }

end Sys2Proof.Machine
end

