-- ==== Sys2Proof/Machine/Display.lean ====
section
/-! DEFINITION. What the chains present and what it means on the display (20_memory.md, R40 to R44). -/

namespace Sys2Proof.Machine

/-- What a chain presents (R40): `OFF`, or its stages. -/
inductive Visible where
  | off
  | shows (stages : List Bool)
  deriving DecidableEq, Repr

/-- What a chain whose enable line nothing drives presents: a free value, which stays until the chain's next shift, latch or
redraw (R41; log 14). -/
def floatingVisible (s : State) (c : ChainId) : Visible :=
  if Config.freeVisOff (s.chain c).redraws c (s.chain c).sr (s.chain c).st then .off
  else .shows ((List.range (s.cfg.depth c)).map (Config.freeVisBit (s.chain c).redraws c (s.chain c).sr (s.chain c).st))

/-- `VIS[c]` (R32, R40). -/
def State.visible (s : State) (c : ChainId) : Visible :=
  match (s.chain c).lines.oe with
  | .z => floatingVisible s c
  | level => if level = levelOf s.cfg.oeActive then .shows (s.chain c).st else .off

/-- Stage `n`, 1-based, of a presented content (R14). -/
def stageOf (stages : List Bool) (n : Nat) : Bool := stages.getD (n - 1) false

/-- LED `k`, 1 to 6, is lit (R43). -/
def State.ledLit (s : State) (k : Nat) : Bool :=
  match s.visible .led with
  | .off => false
  | .shows stages => stageOf stages k

/-- The nibble that drives digit `k`: stage `4k` has weight 8, stage `4k - 3` weight 1 (R44). -/
def digitNibble (stages : List Bool) (k : Nat) : BitVec 4 :=
  BitVec.ofBool (stageOf stages (4 * k)) ++ BitVec.ofBool (stageOf stages (4 * k - 1)) ++
    BitVec.ofBool (stageOf stages (4 * k - 2)) ++ BitVec.ofBool (stageOf stages (4 * k - 3))

/-- What tube `k` shows for a nibble (R44): a numeral, blank for 0xF, a free value for 0xA to 0xE. -/
def tubeOf (s : State) (k : Nat) (nibble : BitVec 4) : Tube :=
  if h : nibble.toNat < 10 then .numeral ⟨nibble.toNat, h⟩
  else if nibble = 0xF#4 then .blank
  else Config.freeTube s.draws k nibble

/-- What tube `k`, 1 to 6, shows (R44). -/
def State.tube (s : State) (k : Nat) : Tube :=
  match s.visible .dig with
  | .off => .blank
  | .shows stages => tubeOf s k (digitNibble stages k)

end Sys2Proof.Machine
end

