-- ==== Sys2Proof/Safety.lean ====
section
/-! DEFINITION. The terms claims are stated in: a safe run, a quiet environment, and the invariant of the machine. -/

namespace Sys2Proof.Machine

/-- No fault recorded, nothing refused (R36). -/
def State.safe (s : State) : Bool := s.faults.isEmpty && s.refused.isEmpty

/-- The host's interrupt never comes and the collaborator never fails, from here on: the conventions of the spec's test
vectors (95_test_vectors.md), `ok = true` and `irq = false` for every draw. -/
def State.quiet (s : State) : Bool :=
  s.irq.listed.all (fun b => !b) && decide (s.irq.rest = some false) && s.gpio.listed.all GpioDraw.ok &&
    (match s.gpio.rest with
    | some d => d.ok
    | none => false)

/-- The state with a quiet environment in place of its own. -/
def State.hushed (s : State) : State :=
  { s with
    irq := { listed := [], rest := some false }
    gpio := { listed := [], rest := some { ok := true, level := false, led := undrivenLines, dig := undrivenLines } } }

/-- Every line of a chain is driven. -/
def linesDriven (l : LineLevels) : Bool :=
  decide (l.ser ≠ .z) && decide (l.clk ≠ .z) && decide (l.lat ≠ .z) && decide (l.oe ≠ .z)

/-- A chain is ready for a load: its serial-data line is driven, and its clock and latch are at their rest level (R86, R176). -/
def Chain.atRest (x : Chain) : Bool :=
  decide (x.lines.ser ≠ .z) && decide (x.lines.clk = .lo) && decide (x.lines.lat = .lo)

/-- Both registers of both chains have the chain's number of stages (R31). -/
def State.stagesFit (s : State) : Bool :=
  decide (s.led.sr.length = s.cfg.depth .led) && decide (s.led.st.length = s.cfg.depth .led) &&
    decide (s.dig.sr.length = s.cfg.depth .dig) && decide (s.dig.st.length = s.cfg.depth .dig)

/-- The sequencer is idle, before the decode, or at a position of the step list of the legal command it runs (R22). -/
def State.seqLegal (s : State) : Bool :=
  match s.seq with
  | .idle => true
  | .running _ 0 _ => true
  | .running w (p + 1) _ =>
    match decode w with
    | .ok i => decide (p < stepCount (progOf s.cfg i))
    | .error _ => false

/-- `BUSY` is 1 while `SEQ` is not idle (R34), and otherwise only where a fault left it 1 (R149; log 10). -/
def State.busyFits (s : State) : Bool :=
  (decide (s.seq = .idle) || s.busy) && (!s.busy || decide (s.seq ≠ .idle) || decide (s.faults ≠ []))

/-- The invariant of the machine: the chains have their depth (R31); while the lines are configured each of them is driven
(R26 to R29); the reserved bits of `RESULT` read 0 (R35); `FAULTS` and `REFUSED` hold nothing twice (R36); the sequencer's
position is one its command has (R22); `BUSY` goes with the sequencer (R34). -/
def State.Inv (s : State) : Prop :=
  s.stagesFit = true ∧ (s.configured = true → linesDriven s.led.lines = true ∧ linesDriven s.dig.lines = true) ∧
    s.result.toNat < 16 ∧ s.faults.Nodup ∧ s.refused.Nodup ∧ s.seqLegal = true ∧ s.busyFits = true

end Sys2Proof.Machine
end

