-- ==== Sys2Proof/Certificates/Slice0/Obligations.lean ====
section
/-! DEFINITION. The statements for the provers. -/

open Sys2Proof Sys2Proof.Machine

/-! ### Terms of the statements -/

/-- The rows of spec/opcode_table.json: match and mask. -/
def Sys2Proof.Machine.opcodeRows : List (Word × Word) :=
  [(0x10000000, 0xFFFFFFFC), (0x20000000, 0xFFFFFFFC), (0x30000000, 0xFFFFFFC0), (0x40000000, 0xFF000000),
    (0x50000000, 0xFFFFFFC0), (0x51000000, 0xFF000000), (0x60000000, 0xFEFFFFFF), (0x70000000, 0xFEFFFFFF),
    (0x80000000, 0xFF0000E8), (0x90000000, 0xFFFFFFF0)]

/-- The command ended with success (R148): `ERR` is `NONE`, `BUSY` is 0 and `SEQ` is idle. -/
def Sys2Proof.Machine.EndedWell (t : State) : Prop := t.err = none ∧ t.busy = false ∧ t.seq = .idle

/-- Whether an entry of the trace is a collaborator call or a hold (R105). -/
def Sys2Proof.Machine.isCallOrHold : TraceEvent → Bool
  | .configure _ _ => true
  | .set _ _ _ => true
  | .release _ => true
  | .hold _ _ => true
  | .abortPoint _ => false
  | .ended _ => false
  | .faulted _ => false
  | .refused _ => false

/-- The collaborator calls and holds of a load that meets no failure and no interrupt, in order (R105). -/
def Sys2Proof.Machine.loadCalls (c : ChainId) (micros : Nat) (bits : List Bool) : List TraceEvent :=
  bits.flatMap (fun b =>
      [.set ⟨c, .ser⟩ b true, .set ⟨c, .clk⟩ true true, .hold micros false, .set ⟨c, .clk⟩ false true]) ++
    [.set ⟨c, .lat⟩ true true, .hold micros false, .set ⟨c, .lat⟩ false true]

/-- The commands that need configured lines (R149). -/
def Sys2Proof.Machine.needsLines : Instr → Bool
  | .init _ _ => false
  | .encodeDigit _ => false
  | .shutdown _ _ => true
  | .setLeds _ => true
  | .setDigits _ => true
  | .loadLed _ => true
  | .loadDig _ => true
  | .enable _ => true
  | .disable _ => true
  | .pulse _ _ _ => true

/-- The lines a command may write: the "registers written" of its rule (R81, R99, R112, R113, R121, R125, R130, R135). -/
def Sys2Proof.Machine.writesLine : Instr → Line → Bool
  | .init _ _, _ => true
  | .shutdown _ _, _ => true
  | .setLeds _, m => decide (m.chain = .led ∧ m.fn ≠ .oe)
  | .setDigits _, m => decide (m.chain = .dig ∧ m.fn ≠ .oe)
  | .loadLed _, m => decide (m.chain = .led ∧ m.fn ≠ .oe)
  | .loadDig _, m => decide (m.chain = .dig ∧ m.fn ≠ .oe)
  | .enable c, m => decide (m = ⟨c, .oe⟩)
  | .disable c, m => decide (m = ⟨c, .oe⟩)
  | .pulse l _ _, m => decide (m = l)
  | .encodeDigit _, _ => false

/-- Every digit field of the operand of a `SET_DIGITS` is valid (R69). -/
def Sys2Proof.Machine.allDigitsValid (g : BitVec 24) : Prop :=
  ∀ k, 1 ≤ k → k ≤ 6 → digitField g k ≤ 0x9#4 ∨ digitField g k = 0xF#4

/-- A bit, as a word (R12). -/
def Sys2Proof.Machine.bitWord (b : Bool) : Word := if b then 1 else 0

/-- The argument of a call that stands for a Digit Value (R17). -/
def Sys2Proof.Machine.argOfDigit : DigitValue → DigitArg
  | .int v => .int v
  | .off => .off

/-- `field(d)` of R74, as a word; 0xA for an integer that has no field of its own (R76). -/
def Sys2Proof.Machine.digitWord : DigitValue → Word
  | .int v => if 0 ≤ v ∧ v ≤ 14 then BitVec.ofInt 32 v else 0xA
  | .off => 0xF

/-- All eight lines are released (R29). -/
def Sys2Proof.Machine.allReleased (t : State) : Prop := ∀ l : Line, t.line l = .z

/-! ### Encoding -/

/-- Every command's word decodes to that command, with every operand at every value (formats of R61 to R67). -/
def Obligations.EncodedCommandsDecodeBack : Prop := ∀ i : Instr, decode (encode i) = .ok i

/-- A legal word has one command, and it is that command's word: no bit of a legal word is dropped. -/
def Obligations.LegalWordsAreTheirCommandsWords : Prop := ∀ (w : Word) (i : Instr), decode w = .ok i → encode i = w

/-- R72: a word is exactly one row of the opcode table with its reserved bits 0, and then it decodes; or no row, and then it is
illegal, by its opcode (R70) or by a reserved bit (R71). There is no other kind. -/
def Obligations.EveryWordIsOneTableRowOrIllegal : Prop :=
  ∀ w : Word,
    ((∃ i, decode w = .ok i) ∧ (opcodeRows.filter (fun r => w &&& r.2 == r.1)).length = 1) ∨
      ((decode w = .error .opcode ∨ decode w = .error .reservedBits) ∧
        (opcodeRows.filter (fun r => w &&& r.2 == r.1)).length = 0 ∧
        (decode w = .error .opcode ↔ w >>> 28 = 0 ∨ 0xA ≤ w >>> 28))

/-- R78: the spec's encoding examples, with the operands that each field stands for. -/
def Obligations.SampleWordsDecode : Prop :=
  decode 0x4071F9F4 = .ok (.setDigits 0x71F9F4#24) ∧ decode 0x30000035 = .ok (.setLeds 0x35#6) ∧
    decode 0x51FFFFFF = .ok (.loadDig 0xFFFFFF#24) ∧ decode 0x80000005 = .ok (.pulse ⟨.dig, .clk⟩ false 0#16) ∧
    decode 0x80006413 = .ok (.pulse ⟨.led, .oe⟩ true 100#16) ∧ decode 0x9000000F = .ok (.encodeDigit 0xF#4) ∧
    decode 0x00000000 = .error .opcode ∧ decode 0xA0000000 = .error .opcode ∧ decode 0x10000004 = .error .reservedBits ∧
    [1, 2, 3, 4, 5, 6].map (fun k => digitValue (digitField 0x71F9F4#24 k)) =
      [.int 4, .off, .int 9, .off, .int 1, .int 7] ∧
    (List.range 6).map (0x35#6).getLsbD = [true, false, true, false, true, true] ∧
    allOff .dig = seqOfField 0xFFFFFF#24 ∧ digitValue 0xF#4 = .off

/-! ### The step, the host's registers and the sequencer -/

/-- A step runs the decoded command: where the host's next action is a legal command word, the board is well-formed, no fault
is recorded and the controller is idle, a step is `exec` of that command from the state in which the action is taken and the
command issued (`SEQ <- (w, 0)`, `BUSY` 1). That a step runs a whole command, and the host's queue, are the model's (log 1, 2, 22). -/
def Obligations.StepRunsTheDecodedCommand : Prop :=
  ∀ (s : State) (w : Word) (rest : List HostEvent) (i : Instr), s.cfg.wellFormed = true → s.faults = [] →
    s.busy = false → s.seq = .idle → s.host = .command w :: rest → decode w = .ok i →
    step s = exec i { s with host := rest, busy := true, seq := .running w 0 none }

/-- R147: an illegal word ends in the decoder, configured or not: `ERR = 4`, and every line, chain, `CONFIGURED` and `RESULT`
as before. -/
def Obligations.IllegalWordChangesOnlyErr : Prop :=
  ∀ (s : State) (w : Word) (rest : List HostEvent) (x : IllegalWord), s.cfg.wellFormed = true → s.faults = [] →
    s.busy = false → s.seq = .idle → s.host = .command w :: rest → decode w = .error x →
    step s =
      .next { s with
        host := rest, err := some .illegalCommand, trace := s.trace ++ [.ended (some .illegalCommand)] } ∧
      ∀ t, step s = .next t → t.status = 0x40 ||| (BitVec.ofBool s.configured).setWidth 32

/-- A command run one controller step at a time (R22), from its issue, comes to exactly the state that `exec` gives in one
step, legal word or not: the two readings of "a command runs to completion" agree. The positions of `SEQ` are the model's
(log 1, 9). -/
def Obligations.StepByStepRunEndsAsExec : Prop :=
  ∀ (s : State) (w : Word), s.seq = .idle →
    ∃ n, runCommand w s = .next (Nat.iterate tick n { s with busy := true, seq := .running w 0 none })

/-- The layout of `STATUS` (R34): `CONF`, `BUSY`, `ERR` with the codes of R142, and the reserved bits 0. `BUSY` is 1 while `SEQ` is
not idle, and with no fault recorded only then, in every state that meets the invariant; that a fault leaves it 1 with `SEQ`
idle is the model's reading of R22 with R149 (log 10). -/
def Obligations.StatusHasItsLayout : Prop :=
  ∀ s : State,
    s.status.getLsbD 0 = s.configured ∧ s.status.getLsbD 1 = s.busy ∧ s.status.extractLsb' 2 2 = 0 ∧
      s.status.extractLsb' 4 4 = errCode s.err ∧ s.status.extractLsb' 8 24 = 0 ∧ (s.Inv → s.seq ≠ .idle → s.busy = true) ∧
      (s.Inv → s.faults = [] → s.busy = true → s.seq ≠ .idle) ∧
      errCode none = 0 ∧ errCode (some .outOfRange) = 1 ∧ errCode (some .hwAccessFailure) = 2 ∧
      errCode (some .hostInterrupt) = 3 ∧ errCode (some .illegalCommand) = 4

/-- A host read (R33): `CMD` reads 0, `STATUS` and `RESULT` their values, whether or not a command is running, and nothing but
the record of reads changes; a number above 2 is refused (R154). The record and the form of a refusal are the model's (log 11,
16). -/
def Obligations.HostReadsAnswerTheRegisters : Prop :=
  ∀ (s : State) (reg : Nat) (rest : List HostEvent), s.cfg.wellFormed = true → s.host = .read reg :: rest →
    step s =
      if reg = 0 then .next { s with host := rest, reads := s.reads ++ [(0, 0)] }
      else if reg = 1 then .next { s with host := rest, reads := s.reads ++ [(1, s.status)] }
      else if reg = 2 then .next { s with host := rest, reads := s.reads ++ [(2, s.result)] }
      else .next (State.refuse { s with host := rest } .register)

/-- A host write (R33): `CMD` while idle starts the command, `STATUS` and `RESULT` ignore it, a number above 2 is refused
(R154). A write of `CMD` while busy has no move (R164), which is a refusal in the model (log 12); the form of `SEQ` is the
model's (log 9). -/
def Obligations.HostWritesReachOnlyCmd : Prop :=
  ∀ (s : State) (reg : Nat) (v : Word) (rest : List HostEvent), s.cfg.wellFormed = true → s.faults = [] →
    s.host = .write reg v :: rest →
    step s =
      if reg = 0 then
        (if s.busy = false ∧ s.seq = .idle then .next { s with host := rest, busy := true, seq := .running v 0 none }
        else .refused .commandWhileBusy)
      else if reg = 1 ∨ reg = 2 then .next { s with host := rest }
      else .next (State.refuse { s with host := rest } .register)

/-! ### Invariants -/

/-- The state after reset meets the invariant, which is the model's reading of R22, R26, R31, R34, R35 and R36 (log 8, 9, 10). -/
def Obligations.ResetMeetsTheInvariant : Prop := State.reset.Inv

/-- Every step keeps the invariant: the chains keep their depth, configured lines stay driven, the reserved bits of `RESULT` stay 0,
`FAULTS` and `REFUSED` stay sets, the sequencer stays at a position its command has, `BUSY` goes with it. The invariant is the model's reading of R22,
R26, R31, R34, R35 and R36 (log 8, 9, 10). -/
def Obligations.EveryStepKeepsTheInvariant : Prop := ∀ s t : State, s.Inv → step s = .next t → t.Inv

/-- No step changes the board's parameters (R8), takes a fault out of `FAULTS` or clears the mark `REFUSED` (R36), reset
included. -/
def Obligations.BoardFaultsAndRefusalsStay : Prop :=
  ∀ s t : State, step s = .next t →
    t.cfg = s.cfg ∧ (∀ f ∈ s.faults, f ∈ t.faults) ∧ (∀ r ∈ s.refused, r ∈ t.refused)

/-- Which commands write which register: `CONFIGURED` only `INITIALIZE` and `SHUTDOWN`, `RESULT` only `ENCODE_DIGIT` (R35);
no command writes the board, the marks of refusal or the host's side, and the trace only grows. -/
def Obligations.OnlyTheNamedCommandsWriteRegisters : Prop :=
  ∀ (i : Instr) (s t : State), exec i s = .next t →
    ((∀ cl cd, i ≠ .init cl cd) → (∀ cl cd, i ≠ .shutdown cl cd) → t.configured = s.configured) ∧
      ((∀ v, i ≠ .encodeDigit v) → t.result = s.result) ∧ t.cfg = s.cfg ∧ t.refused = s.refused ∧ t.host = s.host ∧
      t.reads = s.reads ∧ ∃ evs, t.trace = s.trace ++ evs

/-- Every command, in every environment, answers a next state. Either its line-touching start was unconfigured, and then it
records the fault, `SEQ` returns to idle and nothing else is written, `STATUS` with its `BUSY` included (R22, R149); or it ends
with `SEQ` idle, `BUSY` 0, `ERR` written and its outcome last in the trace (R146, R148), and no fault is recorded. That a fault is
a next state with `SEQ` idle and `BUSY` as it was is the model's choice (log 10), and so is its entry in the trace (log 16). -/
def Obligations.EveryCommandEndsOrFaultsUnconfigured : Prop :=
  ∀ (i : Instr) (s : State), ∃ t, exec i s = .next t ∧
    if needsLines i = true ∧ s.configured = false then
      t = { s with
        seq := .idle
        faults := if Fault.unconfigured ∈ s.faults then s.faults else s.faults ++ [.unconfigured]
        trace := s.trace ++ [.faulted .unconfigured] }
    else t.seq = .idle ∧ t.busy = false ∧ t.trace.getLast? = some (.ended t.err) ∧ t.faults = s.faults

/-- A command changes no line but those of its rule (R24), in every environment. -/
def Obligations.CommandsTouchOnlyTheirLines : Prop :=
  ∀ (i : Instr) (s t : State) (m : Line), exec i s = .next t → writesLine i m = false → t.line m = s.line m

/-- A command that writes no line of a chain leaves that chain, stages and all, as it was (R24: the two chains are
independent), in every environment. -/
def Obligations.CommandsLeaveTheOtherChain : Prop :=
  ∀ (i : Instr) (s t : State) (c : ChainId), exec i s = .next t → (∀ f, writesLine i ⟨c, f⟩ = false) →
    t.chain c = s.chain c

/-! ### Reset and faults -/

/-- The reset input (R169 to R171), at any time, in the middle of a command too: nothing configured, every line undriven,
`STATUS` and `RESULT` 0, `SEQ` idle, the chains' content drawn; `FAULTS`, `REFUSED` and the board as before; no outcome is
written for an abandoned command. Where the contents are drawn is the model's (log 4, 15). -/
def Obligations.ResetInputGivesTheResetState : Prop :=
  ∀ (s : State) (rest : List HostEvent), s.cfg.wellFormed = true → s.host = .reset :: rest →
    ∃ t, step s = .next t ∧ t.configured = false ∧ allReleased t ∧ t.status = 0 ∧ t.result = 0 ∧ t.seq = .idle ∧
      t.faults = s.faults ∧ t.refused = s.refused ∧ t.cfg = s.cfg ∧ t.host = rest ∧ t.trace = s.trace ∧
      ∀ c, ∃ n, (t.chain c).sr = Config.freeStages n (s.cfg.depth c) ∧
        (t.chain c).st = Config.freeStages (n + 1) (s.cfg.depth c)

/-- The state after power-up (R20, R169). -/
def Obligations.PowerUpState : Prop :=
  State.reset.configured = false ∧ allReleased State.reset ∧ State.reset.status = 0 ∧ State.reset.result = 0 ∧
    State.reset.seq = .idle ∧ State.reset.safe = true

/-- R149: after a recorded fault the controller takes no step: with nothing to come from the host, at its turn, and for any
command, call or write of `CMD`. Which of the host's actions that are is the model's (log 10). -/
def Obligations.FaultedMachineTakesNoStep : Prop :=
  ∀ (s : State), s.cfg.wellFormed = true → s.faults ≠ [] →
    (s.host = [] ∨ ∃ e rest, s.host = e :: rest ∧
      (e = .tick ∨ (∃ w, e = .command w) ∨ (∃ c, e = .call c) ∨ (∃ v, e = .write 0 v))) →
    step s = .fault .unconfigured

/-- R25, R154: a board with two lines on one pin is refused: the mark is set and nothing else changes but the trace; then the
block takes no step. That this takes two steps of the model is the model's (log 11). -/
def Obligations.PinConflictIsRefused : Prop :=
  ∀ (s : State), (∃ a b : Fin 8, a ≠ b ∧ s.cfg.pins[a] = s.cfg.pins[b]) →
    step s =
      if RefusedInput.pinMap ∈ s.refused then .refused .pinMap
      else .next { s with refused := s.refused ++ [.pinMap], trace := s.trace ++ [.refused .pinMap] }

/-! ### Chains -/

/-- With driven levels, a line's change shifts its chain (R37) exactly on a rising clock, copies the shift stages to the storage
stages (R38) exactly on a rising latch, and changes no stage otherwise (R39). That the active edge is the rising one is log
18. -/
def Obligations.OnlyRisingEdgesMoveTheStages : Prop :=
  ∀ (l : Line) (b : Bool) (s : State), linesDriven (s.chain l.chain).lines = true →
    ((driveLine l (levelOf b) s).chain l.chain).sr =
        (if l.fn = .clk ∧ s.line l = .lo ∧ b = true then
          (decide ((s.chain l.chain).lines.ser = .hi) :: (s.chain l.chain).sr).take (s.cfg.depth l.chain)
        else (s.chain l.chain).sr) ∧
      ((driveLine l (levelOf b) s).chain l.chain).st =
        if l.fn = .lat ∧ s.line l = .lo ∧ b = true then (s.chain l.chain).sr else (s.chain l.chain).st

/-- A change of a line to or from undriven redraws its chain's shift and storage stages (R41), at the count of draws and the one
after it, and what it shows while its enable line is undriven; the other chain is as it was. Where the contents are drawn is the
model's (log 4, 14). -/
def Obligations.UndrivenChangesRedrawTheStages : Prop :=
  ∀ (l : Line) (v : Level) (s : State), s.line l = .z ∨ v = .z →
    ((driveLine l v s).chain l.chain).sr = Config.freeStages s.draws (s.cfg.depth l.chain) ∧
      ((driveLine l v s).chain l.chain).st = Config.freeStages (s.draws + 1) (s.cfg.depth l.chain) ∧
      (driveLine l v s).draws = s.draws + 2 ∧
      ((driveLine l v s).chain l.chain).redraws = (s.chain l.chain).redraws + 1 ∧ ∀ d, d ≠ l.chain → (driveLine l v s).chain d = s.chain d

/-! ### PULSE -/

/-- A `PULSE` with no interrupt and no failure, on any line, with either rest level and any width (R81, R82): the line is driven
to the negation of the rest level, held, and left at the rest level; no other line and no other chain changes. -/
def Obligations.PulseCompletes : Prop :=
  ∀ (l : Line) (rest : Bool) (w : BitVec 16) (s : State), s.configured = true → s.quiet = true →
    ∃ t, exec (.pulse l rest w) s = .next t ∧ EndedWell t ∧ t.line l = levelOf rest ∧
      t.trace =
        s.trace ++ [.abortPoint false, .set l (!rest) true, .hold (if w = 0 then s.cfg.tPulse else w.toNat) false,
          .set l rest true, .ended none] ∧
      (∀ m, m ≠ l → t.line m = s.line m) ∧ ∀ d, d ≠ l.chain → t.chain d = s.chain d

/-- The corner cases of `PULSE` (R85): on driven lines, a completed pulse of a clock makes exactly one shift, and of a latch
exactly one latch, but for a line at 1 pulsed with rest level 0, which makes none; a pulse of a serial-data or enable line moves
no stage. -/
def Obligations.PulseMakesAtMostOneActiveEdge : Prop :=
  ∀ (l : Line) (rest : Bool) (w : BitVec 16) (s : State), s.configured = true → s.quiet = true →
    linesDriven (s.chain l.chain).lines = true →
    ∃ t, exec (.pulse l rest w) s = .next t ∧
      (t.chain l.chain).sr =
        (if l.fn = .clk ∧ ¬(s.line l = .hi ∧ rest = false) then
          (decide ((s.chain l.chain).lines.ser = .hi) :: (s.chain l.chain).sr).take (s.cfg.depth l.chain)
        else (s.chain l.chain).sr) ∧
      (t.chain l.chain).st =
        if l.fn = .lat ∧ ¬(s.line l = .hi ∧ rest = false) then (s.chain l.chain).sr else (s.chain l.chain).st

/-- Every way a `PULSE` can go, in every environment (R80, R81, R153): interrupted before the line is touched; its first set
fails, and there is no hold and no restore; or the restore runs, whether or not the hold was interrupted, and an error of the
restore replaces the interrupt. -/
def Obligations.PulseAlwaysRestoresAfterItsHold : Prop :=
  ∀ (l : Line) (rest : Bool) (w : BitVec 16) (s : State), s.configured = true →
    ∃ t, exec (.pulse l rest w) s = .next t ∧
      ((t.err = some .hostInterrupt ∧ (∀ c, t.chain c = s.chain c) ∧
          t.trace = s.trace ++ [.abortPoint true, .ended t.err]) ∨
        (t.err = some .hwAccessFailure ∧ t.line l ≠ .z ∧
          t.trace = s.trace ++ [.abortPoint false, .set l (!rest) false, .ended t.err]) ∨
        ∃ irq ok,
          t.trace =
              s.trace ++ [.abortPoint false, .set l (!rest) true,
                .hold (if w = 0 then s.cfg.tPulse else w.toNat) irq, .set l rest ok, .ended t.err] ∧
            (ok = true → t.line l = levelOf rest) ∧
            t.err = if ok = false then some .hwAccessFailure else if irq = true then some .hostInterrupt else none)

/-! ### ENCODE_DIGIT -/

/-- `ENCODE_DIGIT` (R90, R91), in every state, configured or not: a valid field goes to `RESULT` and `ERR` is 0; any other leaves
`RESULT` and `ERR` is 1; nothing else changes but `SEQ` and the trace. -/
def Obligations.EncodeDigitWritesResultOrErr : Prop :=
  ∀ (v : BitVec 4) (s : State),
    exec (.encodeDigit v) s =
      if v ≤ 0x9#4 ∨ v = 0xF#4 then
        .next { s with result := v.setWidth 32, busy := false, err := none, seq := .idle, trace := s.trace ++ [.ended none] }
      else .next { s with
        busy := false, err := some .outOfRange, seq := .idle, trace := s.trace ++ [.ended (some .outOfRange)] }

/-- R89: the encoder on fields is the encoder on Digit Values: it fails on the same fields, and its code, read most significant bit
first, is the value's. -/
def Obligations.FieldEncoderIsTheEncoder : Prop :=
  ∀ v : BitVec 4,
    encF v = (if v ≤ 0x9#4 ∨ v = 0xF#4 then some v else none) ∧ (encF v = none ↔ enc (digitValue v) = none) ∧
      ∀ c, encF v = some c → c = v ∧ enc (digitValue v) = some (seqOfField c)

/-- R93: over every Digit Value the encoder produces only the codes 0000 to 1001 and 1111, four bits each; 1010 to 1110
never. -/
def Obligations.EncoderProducesOnlyItsCodes : Prop :=
  ∀ (d : DigitValue) (code : List Bool), enc d = some code →
    code.length = 4 ∧ (natOfSeq code ≤ 9 ∨ natOfSeq code = 15)

/-- R88, R92: for an integer 0 to 9 the code is its 4-bit binary form, most significant bit first; `off` is 1111; every other
integer fails. -/
def Obligations.EncoderGivesTheBinaryCode : Prop :=
  enc .off = some [true, true, true, true] ∧
    ∀ v : Int, (0 ≤ v ∧ v ≤ 9 → ∃ b3 b2 b1 b0 : Bool, enc (.int v) = some [b3, b2, b1, b0] ∧
      v = 8 * (b3.toNat : Int) + 4 * b2.toNat + 2 * b1.toNat + b0.toNat) ∧ (¬(0 ≤ v ∧ v ≤ 9) → enc (.int v) = none)

/-! ### LOAD -/

/-- A load of the LED chain with no interrupt and no failure, its clock and latch at rest (R103, R107): stage `s` of the shift
and the storage stages holds bit `s - 1`, the stages beyond the sixth hold the old stages 1 and on, and the lines are left with
the last bit on serial-data, clock and latch at 0, and the enable line as it was. -/
def Obligations.LoadLedPutsItsBitsInTheStages : Prop :=
  ∀ (b : BitVec 6) (s : State), s.configured = true → s.quiet = true → s.led.atRest = true →
    ∃ t, exec (.loadLed b) s = .next t ∧ EndedWell t ∧
      t.led.sr = stagesOfField b ++ s.led.sr.take s.cfg.ledExtra ∧ t.led.st = t.led.sr ∧
      t.led.lines = { ser := levelOf (b.getLsbD 0), clk := .lo, lat := .lo, oe := s.led.lines.oe }

/-- The same of the Digit chain, whose 24 stages are all loaded (R103, R107). -/
def Obligations.LoadDigPutsItsBitsInTheStages : Prop :=
  ∀ (b : BitVec 24) (s : State), s.configured = true → s.quiet = true → s.dig.atRest = true →
    ∃ t, exec (.loadDig b) s = .next t ∧ EndedWell t ∧ t.dig.sr = stagesOfField b ∧ t.dig.st = t.dig.sr ∧
      t.dig.lines = { ser := levelOf (b.getLsbD 0), clk := .lo, lat := .lo, oe := s.dig.lines.oe }

/-- R105: the collaborator calls and holds of a load with no interrupt and no failure are exactly those of the spec, in order:
`W` times serial-data, clock up, hold, clock down, then latch up, hold, latch down; so 20 sets and 7 holds for the LED chain, 74
and 25 for the Digit chain. -/
def Obligations.LoadMakesExactlyItsCalls : Prop :=
  ∀ s : State, s.configured = true → s.quiet = true →
    (∀ b : BitVec 6, ∃ t evs, exec (.loadLed b) s = .next t ∧ t.trace = s.trace ++ evs ∧
      evs.filter isCallOrHold = loadCalls .led s.cfg.tPulse (seqOfField b) ∧
      (evs.filter isCallOrHold).length = 20 + 7) ∧
    ∀ b : BitVec 24, ∃ t evs, exec (.loadDig b) s = .next t ∧ t.trace = s.trace ++ evs ∧
      evs.filter isCallOrHold = loadCalls .dig s.cfg.tPulse (seqOfField b) ∧
      (evs.filter isCallOrHold).length = 74 + 25

/-- A load is all or nothing, in EVERY environment (R102, R106): whatever interrupts or failures come, the storage stages, and so
the display, end as they were before or with the whole new content; and if the command reports success, with the new. -/
def Obligations.LoadIsAllOrNothing : Prop :=
  ∀ s : State, s.configured = true →
    (∀ b : BitVec 6, s.led.atRest = true → ∃ t, exec (.loadLed b) s = .next t ∧
      (t.led.st = s.led.st ∨ t.led.st = stagesOfField b ++ s.led.sr.take s.cfg.ledExtra) ∧
      (t.err = none → t.led.st = stagesOfField b ++ s.led.sr.take s.cfg.ledExtra)) ∧
    ∀ b : BitVec 24, s.dig.atRest = true → ∃ t, exec (.loadDig b) s = .next t ∧
      (t.dig.st = s.dig.st ∨ t.dig.st = stagesOfField b) ∧ (t.err = none → t.dig.st = stagesOfField b)

/-- R176: a clock left high loses the first bit of the next load: stages 1 to `W - 1` hold the other bits, stage `W` the old
stage-1 bit, the latch shows that, and the clock is at rest afterwards. -/
def Obligations.ClockLeftHighLosesTheFirstBit : Prop :=
  ∀ s : State, s.configured = true → s.quiet = true →
    (∀ b : BitVec 6, s.led.lines.ser ≠ .z → s.led.lines.clk = .hi → s.led.lines.lat = .lo →
      ∃ t, exec (.loadLed b) s = .next t ∧ EndedWell t ∧ t.led.lines.clk = .lo ∧ t.led.st = t.led.sr ∧
        t.led.sr.take 6 = (stagesOfField b).take 5 ++ s.led.sr.take 1) ∧
    ∀ b : BitVec 24, s.dig.lines.ser ≠ .z → s.dig.lines.clk = .hi → s.dig.lines.lat = .lo →
      ∃ t, exec (.loadDig b) s = .next t ∧ EndedWell t ∧ t.dig.lines.clk = .lo ∧ t.dig.st = t.dig.sr ∧
        t.dig.sr = (stagesOfField b).take 23 ++ s.dig.sr.take 1

/-- R176: with the latch left high the next load latches nothing, and the latch is at rest afterwards. -/
def Obligations.LatchLeftHighLatchesNothing : Prop :=
  ∀ s : State, s.configured = true → s.quiet = true →
    (∀ b : BitVec 6, s.led.lines.ser ≠ .z → s.led.lines.clk ≠ .z → s.led.lines.lat = .hi →
      ∃ t, exec (.loadLed b) s = .next t ∧ EndedWell t ∧ t.led.lines.lat = .lo ∧ t.led.st = s.led.st) ∧
    ∀ b : BitVec 24, s.dig.lines.ser ≠ .z → s.dig.lines.clk ≠ .z → s.dig.lines.lat = .hi →
      ∃ t, exec (.loadDig b) s = .next t ∧ EndedWell t ∧ t.dig.lines.lat = .lo ∧ t.dig.st = s.dig.st

/-! ### ENABLE and DISABLE -/

/-- `ENABLE` with no interrupt and no failure (R112): the enable line is at the active level, and the chain shows its latched
content. -/
def Obligations.EnableShowsTheLatchedContent : Prop :=
  ∀ (c : ChainId) (s : State), s.configured = true → s.quiet = true →
    ∃ t, exec (.enable c) s = .next t ∧ EndedWell t ∧ t.line ⟨c, .oe⟩ = levelOf s.cfg.oeActive ∧
      t.visible c = .shows (t.chain c).st

/-- `DISABLE` with no interrupt and no failure (R113): the enable line is at the inactive level, and the chain shows nothing. -/
def Obligations.DisableBlanksTheChain : Prop :=
  ∀ (c : ChainId) (s : State), s.configured = true → s.quiet = true →
    ∃ t, exec (.disable c) s = .next t ∧ EndedWell t ∧ t.line ⟨c, .oe⟩ = levelOf (!s.cfg.oeActive) ∧ t.visible c = .off

/-- R114: `ENABLE` and `DISABLE` move no stage of either chain while the enable line is driven, in every environment, and make no
pulse and no hold: at most one set, of the enable line. And `DISABLE` then `ENABLE` shows exactly the picture that was shown
before. -/
def Obligations.BlankingKeepsTheContent : Prop :=
  ∀ (c : ChainId) (s : State), s.configured = true → s.line ⟨c, .oe⟩ ≠ .z →
    (∀ i, i = .enable c ∨ i = .disable c → ∃ t evs, exec i s = .next t ∧ t.trace = s.trace ++ evs ∧
      (∀ d, (t.chain d).sr = (s.chain d).sr ∧ (t.chain d).st = (s.chain d).st) ∧
      ((evs.filter isCallOrHold) = [] ∨ ∃ v ok, evs.filter isCallOrHold = [.set ⟨c, .oe⟩ v ok])) ∧
    (s.quiet = true → s.line ⟨c, .oe⟩ = levelOf s.cfg.oeActive →
      ∃ t u, exec (.disable c) s = .next t ∧ exec (.enable c) t = .next u ∧ t.visible c = .off ∧
        u.visible c = s.visible c)

/-! ### INITIALIZE -/

/-- The end of an `INITIALIZE` with no interrupt and no failure, from any state (R122): `STATUS` is 0x00000001; a requested chain
is cleared, enabled and at rest; a chain not requested has its four lines at 0, and shows its content exactly if 0 is the active
level. That this holds from a state with a clock or latch at 1 too is the model's choice (log 25): it follows R121 and R122, where
R176 names `INITIALIZE` among the commands whose load such a line spoils. -/
def Obligations.InitializeEndState : Prop :=
  ∀ (cl cd : Bool) (s : State), s.quiet = true →
    ∃ t, exec (.init cl cd) s = .next t ∧ t.configured = true ∧ t.status = 0x00000001 ∧
      (cl = true → t.led.st.take 6 = List.replicate 6 false ∧ t.visible .led = .shows t.led.st ∧
        (∀ k, 1 ≤ k → k ≤ 6 → t.ledLit k = false) ∧
        t.led.lines = { ser := .lo, clk := .lo, lat := .lo, oe := levelOf s.cfg.oeActive }) ∧
      (cd = true → t.dig.st = List.replicate 24 true ∧ t.visible .dig = .shows t.dig.st ∧
        (∀ k, 1 ≤ k → k ≤ 6 → t.tube k = .blank) ∧
        t.dig.lines = { ser := .hi, clk := .lo, lat := .lo, oe := levelOf s.cfg.oeActive }) ∧
      (∀ c, (c = .led ∧ cl = false) ∨ (c = .dig ∧ cd = false) →
        (t.chain c).lines = { ser := .lo, clk := .lo, lat := .lo, oe := .lo } ∧
          t.visible c = if s.cfg.oeActive = false then .shows (t.chain c).st else .off)

/-- Every way an `INITIALIZE` can begin, in every environment (R121, R123): interrupted before the configure; a failed configure,
which leaves `CONFIGURED = 0` and ends the command; or a configure that succeeds, after which `CONFIGURED` is 1 however the
command ends: it has no cleanup. -/
def Obligations.InitializeConfiguresOrReports : Prop :=
  ∀ (cl cd : Bool) (s : State), ∃ t evs, exec (.init cl cd) s = .next t ∧ t.trace = s.trace ++ evs ∧ t.faults = s.faults ∧
    ((evs = [.abortPoint true, .ended (some .hostInterrupt)] ∧ t.err = some .hostInterrupt ∧ t.configured = s.configured ∧
        (∀ c, t.chain c = s.chain c)) ∨
      (evs = [.abortPoint false, .configure false false, .ended (some .hwAccessFailure)] ∧ t.err = some .hwAccessFailure ∧
        t.configured = false) ∨
      ([TraceEvent.abortPoint false, .configure false true] <+: evs ∧ t.configured = true))

/-! ### SET_LEDS and SET_DIGITS -/

/-- R125: `SET_LEDS(L)` is the same as `LOAD(0, L)`, in every state and environment. -/
def Obligations.SetLedsIsTheLedLoad : Prop := ∀ (l : BitVec 6) (s : State), exec (.setLeds l) s = exec (.loadLed l) s

/-- The end of a `SET_LEDS` with no interrupt and no failure, the chain at rest (R126): the storage stages 1 to 6 hold `L`, whatever
they held; LED `k` is lit exactly when its bit is 1 and the chain is enabled; the same command again leaves the same six
stages. -/
def Obligations.SetLedsLightsItsLeds : Prop :=
  ∀ (l : BitVec 6) (s : State), s.configured = true → s.quiet = true → s.led.atRest = true → s.led.lines.oe ≠ .z →
    ∃ t, exec (.setLeds l) s = .next t ∧ EndedWell t ∧ t.led.st.take 6 = stagesOfField l ∧
      (∀ k, 1 ≤ k → k ≤ 6 →
        (t.ledLit k = true ↔ l.getLsbD (k - 1) = true ∧ s.led.lines.oe = levelOf s.cfg.oeActive)) ∧
      ∃ u, exec (.setLeds l) t = .next u ∧ EndedWell u ∧ u.led.st.take 6 = t.led.st.take 6

/-- R131: lane `k` of the load data is `encF(Gk)`; with every lane valid, the data is `G` and `SET_DIGITS(G)` is the same as
`LOAD(1, G)`, in every state and environment; one lane out of range fails the whole command. -/
def Obligations.SetDigitsIsTheDigitLoad : Prop :=
  ∀ g : BitVec 24,
    (allDigitsValid g → (∀ k, 1 ≤ k → k ≤ 6 → encF (digitField g k) = some (digitField g k)) ∧
      digitSequence g = some (seqOfField g) ∧
      ∀ s : State, exec (.setDigits g) s = exec (.loadDig g) s) ∧
    (¬allDigitsValid g → ∀ s : State, s.configured = true →
      ∃ t, exec (.setDigits g) s = .next t ∧ t.err = some .outOfRange)

/-- Validation comes first (R129): with a digit out of range, a configured `SET_DIGITS` changes no line, chain or register but
`STATUS`, and makes no draw, in every environment. -/
def Obligations.SetDigitsRejectsBeforeAnyLine : Prop :=
  ∀ (g : BitVec 24) (s : State), s.configured = true → ¬allDigitsValid g →
    exec (.setDigits g) s =
      .next { s with
        busy := false, err := some .outOfRange, seq := .idle, trace := s.trace ++ [.ended (some .outOfRange)] }

/-- The end of a `SET_DIGITS` with valid digits, no interrupt and no failure, the chain at rest (R132): the storage stages hold
`G`; with the chain enabled, tube `k` shows the numeral `Gk`, or is blank where `Gk` is off. -/
def Obligations.SetDigitsShowsItsDigits : Prop :=
  ∀ (g : BitVec 24) (s : State), s.configured = true → s.quiet = true → s.dig.atRest = true → allDigitsValid g →
    ∃ t, exec (.setDigits g) s = .next t ∧ EndedWell t ∧ t.dig.st = stagesOfField g ∧
      (∀ k, 1 ≤ k → k ≤ 6 → digitNibble t.dig.st k = digitField g k) ∧
      (s.dig.lines.oe = levelOf s.cfg.oeActive →
        ∀ k, 1 ≤ k → k ≤ 6 →
          (digitField g k = 0xF#4 → t.tube k = .blank) ∧
            ∀ n : Fin 10, (digitField g k).toNat = n.val → t.tube k = .numeral n)

/-! ### SHUTDOWN -/

/-- The release is guaranteed (R137), in EVERY environment: a configured `SHUTDOWN` ends unconfigured with all eight lines released,
whatever fails or interrupts; the release is the last call, and if it fails, its failure is the error reported (R153). -/
def Obligations.ShutdownAlwaysReleases : Prop :=
  ∀ (cl cd : Bool) (s : State), s.configured = true →
    ∃ t evs ok, exec (.shutdown cl cd) s = .next t ∧ t.configured = false ∧ allReleased t ∧ t.seq = .idle ∧ t.busy = false ∧
      t.status.getLsbD 0 = false ∧ t.trace = s.trace ++ evs ++ [.release ok, .ended t.err] ∧
      (ok = false → t.err = some .hwAccessFailure)

/-- A `SHUTDOWN` with no interrupt and no failure (R135, R136): its calls are the requested disables, then the requested all-off loads,
LED chain first in each phase, then the release; it ends with `STATUS` 0 and every line released. -/
def Obligations.ShutdownBlanksClearsReleases : Prop :=
  ∀ (cl cd : Bool) (s : State), s.configured = true → s.quiet = true →
    ∃ t evs, exec (.shutdown cl cd) s = .next t ∧ EndedWell t ∧ t.status = 0 ∧ allReleased t ∧ t.trace = s.trace ++ evs ∧
      evs.filter isCallOrHold =
        (if cl then [.set ⟨.led, .oe⟩ (!s.cfg.oeActive) true] else []) ++
          (if cd then [.set ⟨.dig, .oe⟩ (!s.cfg.oeActive) true] else []) ++
          (if cl then loadCalls .led s.cfg.tPulse (List.replicate 6 false) else []) ++
          (if cd then loadCalls .dig s.cfg.tPulse (List.replicate 24 true) else []) ++ [.release true]

/-! ### The call level -/

/-- The call forms and their words (R75), with R74's formula for the arguments given: bit `k-1` of the word of a `set_leds` is
`ledk`, field `k` of the word of a `set_digits` is the field of `digitk` (0xA for an integer outside 0 to 14, as R76 lets a
transcriber write it), an argument left out has its default, `BLANK` and `UNBLANK` are `DISABLE` and `ENABLE`; and `PULSE` with its
width left out or from 1 to 65535 (a width of 0 is with the other calls, below). -/
def Obligations.CallFormsHaveTheirWords : Prop :=
  callWord (.init none none) = .ok 0x10000003 ∧ callWord (.shutdown none none) = .ok 0x20000003 ∧
    (∀ a b : Option Bool,
      callWord (.init a b) = .ok (0x10000000 + (bitWord (b.getD true) <<< 1) + bitWord (a.getD true)) ∧
        callWord (.shutdown a b) = .ok (0x20000000 + (bitWord (b.getD true) <<< 1) + bitWord (a.getD true))) ∧
    callWord (.setLeds (Vector.replicate 6 none)) = .ok 0x30000000 ∧
    callWord (.setDigits (Vector.replicate 6 none)) = .ok 0x40FFFFFF ∧
    (∀ a1 a2 a3 a4 a5 a6 : Bool,
      callWord (.setLeds (#v[a1, a2, a3, a4, a5, a6].map (fun a => some (.bool a)))) =
        .ok (0x30000000 + bitWord a1 + (bitWord a2 <<< 1) + (bitWord a3 <<< 2) + (bitWord a4 <<< 3) + (bitWord a5 <<< 4) +
          (bitWord a6 <<< 5))) ∧
    (∀ d1 d2 d3 d4 d5 d6 : DigitValue,
      callWord (.setDigits (#v[d1, d2, d3, d4, d5, d6].map (fun d => some (argOfDigit d)))) =
        .ok (0x40000000 + digitWord d1 + (digitWord d2 <<< 4) + (digitWord d3 <<< 8) + (digitWord d4 <<< 12) +
          (digitWord d5 <<< 16) + (digitWord d6 <<< 20))) ∧
    (∀ leds : Vector (Option LedArg) 6,
      callWord (.setLeds leds) = callWord (.setLeds (leds.map (fun a => some (a.getD (.bool false)))))) ∧
    (∀ digits : Vector (Option DigitArg) 6,
      callWord (.setDigits digits) = callWord (.setDigits (digits.map (fun a => some (a.getD .off))))) ∧
    callWord (.disable .led) = .ok 0x70000000 ∧ callWord (.disable .dig) = .ok 0x71000000 ∧
    callWord (.enable .led) = .ok 0x60000000 ∧ callWord (.enable .dig) = .ok 0x61000000 ∧
    ∀ (l : Line) (r : Bool),
      callWord (.pulse l r none) = .ok (0x80000000 + (bitWord r <<< 4) + BitVec.ofNat 32 (allLines.idxOf l)) ∧
        ∀ n, 1 ≤ n → n ≤ 65535 →
          callWord (.pulse l r (some n)) =
            .ok (0x80000000 + (BitVec.ofNat 32 n <<< 8) + (bitWord r <<< 4) + BitVec.ofNat 32 (allLines.idxOf l))

/-- Exactly the well-formed calls have a word (R76, R100): a load of another length is refused as `REFUSED_LOAD_LENGTH`, any other
ill-formed call as `REFUSED_CALL_FORM` (R154). -/
def Obligations.OnlyWellFormedCallsHaveWords : Prop :=
  ∀ c : Call,
    if c.wellFormed = true then ∃ w, callWord c = .ok w
    else callWord c = .error (match c with
      | .load _ _ => .loadLength
      | _ => .callForm)

/-- A load call shifts exactly the bits it is given, in their order (R13, R64): the transcribed command's bit sequence is the
call's. -/
def Obligations.LoadCallKeepsItsBits : Prop :=
  (∀ (bits : List Bool), bits.length = 6 →
      ∃ b : BitVec 6, transcribe (.load .led bits) = .ok (.loadLed b) ∧ seqOfField b = bits) ∧
    ∀ (bits : List Bool), bits.length = 24 →
      ∃ b : BitVec 24, transcribe (.load .dig bits) = .ok (.loadDig b) ∧ seqOfField b = bits

/-- A call of the encoder with any integer acts as the encoder does on that integer (R76): its command fails exactly where the
integer is out of range, and its code is the integer's. -/
def Obligations.EncodeCallKeepsTheValue : Prop :=
  ∀ v : Int, ∃ f, transcribe (.encodeDigit (.int v)) = .ok (.encodeDigit f) ∧
    (encF f).map seqOfField = enc (.int v)

/-- A call of the host (R75, R154): with a word, it is that word's command; without one, it is refused: the mark is set and the
block takes no step. The form of a refusal is the model's (log 11). -/
def Obligations.CallsRunAsTheirWords : Prop :=
  ∀ (s : State) (c : Call) (rest : List HostEvent), s.cfg.wellFormed = true → s.faults = [] →
    s.busy = false → s.seq = .idle → s.host = .call c :: rest →
    (∀ w, callWord c = .ok w → step s = step { s with host := .command w :: rest }) ∧
      ∀ r, callWord c = .error r → step s = .next (State.refuse { s with host := rest } r)

/-- R74's formula for the calls beside the ones of R75: `load` of each chain with the data `b`, `encode_digit` of a Digit Value (0xA
for an integer outside 0 to 14, R76), and `pulse` with a width of 0, which becomes the word that stands for `T_PULSE`, the
model's reading (log 21). -/
def Obligations.OtherCallsHaveTheirWords : Prop :=
  (∀ b : BitVec 6, callWord (.load .led (seqOfField b)) = .ok (0x50000000 + b.setWidth 32)) ∧
    (∀ b : BitVec 24, callWord (.load .dig (seqOfField b)) = .ok (0x51000000 + b.setWidth 32)) ∧
    (∀ d : DigitValue, callWord (.encodeDigit (argOfDigit d)) = .ok (0x90000000 + digitWord d)) ∧
    ∀ (l : Line) (r : Bool), callWord (.pulse l r (some 0)) = callWord (.pulse l r none)

/-! ### What a chain shows -/

/-- What a chain shows stays until one of its line events (R32, R40, R41), its enable line undriven or not: an abort point and a
hold leave it, and so does every command that writes none of the chain's lines, in every environment. The free value it shows
while its enable line is undriven is the model's (log 14). -/
def Obligations.ShownContentStaysBetweenLineEvents : Prop :=
  (∀ (s t : State) (c : ChainId) (m : Nat),
    (abortPoint s = .done t ∨ abortPoint s = .raised .hostInterrupt t ∨ hold m s = .done t ∨
      hold m s = .raised .hostInterrupt t) → t.visible c = s.visible c) ∧
    ∀ (i : Instr) (s t : State) (c : ChainId), exec i s = .next t → (∀ f, writesLine i ⟨c, f⟩ = false) →
      t.visible c = s.visible c
end

