-- ==== Sys2Proof/Laws/State.lean ====
section
/-! SUPPORT. The small lemmas of the state: one per field per update, so that no later proof unfolds a record update. -/

namespace Sys2Proof.Machine

/-! ### `State.afterIrq` -/

@[simp] theorem State.afterIrq_cfg (s : State) : s.afterIrq.cfg = s.cfg := rfl
@[simp] theorem State.afterIrq_configured (s : State) : s.afterIrq.configured = s.configured := rfl
@[simp] theorem State.afterIrq_led (s : State) : s.afterIrq.led = s.led := rfl
@[simp] theorem State.afterIrq_dig (s : State) : s.afterIrq.dig = s.dig := rfl
@[simp] theorem State.afterIrq_busy (s : State) : s.afterIrq.busy = s.busy := rfl
@[simp] theorem State.afterIrq_err (s : State) : s.afterIrq.err = s.err := rfl
@[simp] theorem State.afterIrq_result (s : State) : s.afterIrq.result = s.result := rfl
@[simp] theorem State.afterIrq_seq (s : State) : s.afterIrq.seq = s.seq := rfl
@[simp] theorem State.afterIrq_faults (s : State) : s.afterIrq.faults = s.faults := rfl
@[simp] theorem State.afterIrq_refused (s : State) : s.afterIrq.refused = s.refused := rfl
@[simp] theorem State.afterIrq_host (s : State) : s.afterIrq.host = s.host := rfl
@[simp] theorem State.afterIrq_reads (s : State) : s.afterIrq.reads = s.reads := rfl
@[simp] theorem State.afterIrq_irq (s : State) : s.afterIrq.irq = s.irq.after := rfl
@[simp] theorem State.afterIrq_gpio (s : State) : s.afterIrq.gpio = s.gpio := rfl
@[simp] theorem State.afterIrq_draws (s : State) : s.afterIrq.draws = s.draws + 1 := rfl
@[simp] theorem State.afterIrq_trace (s : State) : s.afterIrq.trace = s.trace := rfl

/-! ### `State.afterGpio` -/

@[simp] theorem State.afterGpio_cfg (s : State) : s.afterGpio.cfg = s.cfg := rfl
@[simp] theorem State.afterGpio_configured (s : State) : s.afterGpio.configured = s.configured := rfl
@[simp] theorem State.afterGpio_led (s : State) : s.afterGpio.led = s.led := rfl
@[simp] theorem State.afterGpio_dig (s : State) : s.afterGpio.dig = s.dig := rfl
@[simp] theorem State.afterGpio_busy (s : State) : s.afterGpio.busy = s.busy := rfl
@[simp] theorem State.afterGpio_err (s : State) : s.afterGpio.err = s.err := rfl
@[simp] theorem State.afterGpio_result (s : State) : s.afterGpio.result = s.result := rfl
@[simp] theorem State.afterGpio_seq (s : State) : s.afterGpio.seq = s.seq := rfl
@[simp] theorem State.afterGpio_faults (s : State) : s.afterGpio.faults = s.faults := rfl
@[simp] theorem State.afterGpio_refused (s : State) : s.afterGpio.refused = s.refused := rfl
@[simp] theorem State.afterGpio_host (s : State) : s.afterGpio.host = s.host := rfl
@[simp] theorem State.afterGpio_reads (s : State) : s.afterGpio.reads = s.reads := rfl
@[simp] theorem State.afterGpio_irq (s : State) : s.afterGpio.irq = s.irq := rfl
@[simp] theorem State.afterGpio_gpio (s : State) : s.afterGpio.gpio = s.gpio.after := rfl
@[simp] theorem State.afterGpio_draws (s : State) : s.afterGpio.draws = s.draws + 1 := rfl
@[simp] theorem State.afterGpio_trace (s : State) : s.afterGpio.trace = s.trace := rfl

/-! ### `State.emit` -/

@[simp] theorem State.emit_cfg (s : State) (e : TraceEvent) : (s.emit e).cfg = s.cfg := rfl
@[simp] theorem State.emit_configured (s : State) (e : TraceEvent) : (s.emit e).configured = s.configured := rfl
@[simp] theorem State.emit_led (s : State) (e : TraceEvent) : (s.emit e).led = s.led := rfl
@[simp] theorem State.emit_dig (s : State) (e : TraceEvent) : (s.emit e).dig = s.dig := rfl
@[simp] theorem State.emit_busy (s : State) (e : TraceEvent) : (s.emit e).busy = s.busy := rfl
@[simp] theorem State.emit_err (s : State) (e : TraceEvent) : (s.emit e).err = s.err := rfl
@[simp] theorem State.emit_result (s : State) (e : TraceEvent) : (s.emit e).result = s.result := rfl
@[simp] theorem State.emit_seq (s : State) (e : TraceEvent) : (s.emit e).seq = s.seq := rfl
@[simp] theorem State.emit_faults (s : State) (e : TraceEvent) : (s.emit e).faults = s.faults := rfl
@[simp] theorem State.emit_refused (s : State) (e : TraceEvent) : (s.emit e).refused = s.refused := rfl
@[simp] theorem State.emit_host (s : State) (e : TraceEvent) : (s.emit e).host = s.host := rfl
@[simp] theorem State.emit_reads (s : State) (e : TraceEvent) : (s.emit e).reads = s.reads := rfl
@[simp] theorem State.emit_irq (s : State) (e : TraceEvent) : (s.emit e).irq = s.irq := rfl
@[simp] theorem State.emit_gpio (s : State) (e : TraceEvent) : (s.emit e).gpio = s.gpio := rfl
@[simp] theorem State.emit_draws (s : State) (e : TraceEvent) : (s.emit e).draws = s.draws := rfl
@[simp] theorem State.emit_trace (s : State) (e : TraceEvent) : (s.emit e).trace = s.trace ++ [e] := rfl

/-! ### `State.recordFault` -/

@[simp] theorem State.recordFault_cfg (s : State) (f : Fault) : (s.recordFault f).cfg = s.cfg := rfl
@[simp] theorem State.recordFault_configured (s : State) (f : Fault) : (s.recordFault f).configured = s.configured := rfl
@[simp] theorem State.recordFault_led (s : State) (f : Fault) : (s.recordFault f).led = s.led := rfl
@[simp] theorem State.recordFault_dig (s : State) (f : Fault) : (s.recordFault f).dig = s.dig := rfl
@[simp] theorem State.recordFault_busy (s : State) (f : Fault) : (s.recordFault f).busy = s.busy := rfl
@[simp] theorem State.recordFault_err (s : State) (f : Fault) : (s.recordFault f).err = s.err := rfl
@[simp] theorem State.recordFault_result (s : State) (f : Fault) : (s.recordFault f).result = s.result := rfl
@[simp] theorem State.recordFault_seq (s : State) (f : Fault) : (s.recordFault f).seq = .idle := rfl
@[simp] theorem State.recordFault_faults (s : State) (f : Fault) : (s.recordFault f).faults = if f ∈ s.faults then s.faults else s.faults ++ [f] := rfl
@[simp] theorem State.recordFault_refused (s : State) (f : Fault) : (s.recordFault f).refused = s.refused := rfl
@[simp] theorem State.recordFault_host (s : State) (f : Fault) : (s.recordFault f).host = s.host := rfl
@[simp] theorem State.recordFault_reads (s : State) (f : Fault) : (s.recordFault f).reads = s.reads := rfl
@[simp] theorem State.recordFault_irq (s : State) (f : Fault) : (s.recordFault f).irq = s.irq := rfl
@[simp] theorem State.recordFault_gpio (s : State) (f : Fault) : (s.recordFault f).gpio = s.gpio := rfl
@[simp] theorem State.recordFault_draws (s : State) (f : Fault) : (s.recordFault f).draws = s.draws := rfl
@[simp] theorem State.recordFault_trace (s : State) (f : Fault) : (s.recordFault f).trace = s.trace ++ [.faulted f] := rfl

/-! ### `State.refuse` -/

@[simp] theorem State.refuse_cfg (s : State) (r : RefusedInput) : (s.refuse r).cfg = s.cfg := rfl
@[simp] theorem State.refuse_configured (s : State) (r : RefusedInput) : (s.refuse r).configured = s.configured := rfl
@[simp] theorem State.refuse_led (s : State) (r : RefusedInput) : (s.refuse r).led = s.led := rfl
@[simp] theorem State.refuse_dig (s : State) (r : RefusedInput) : (s.refuse r).dig = s.dig := rfl
@[simp] theorem State.refuse_busy (s : State) (r : RefusedInput) : (s.refuse r).busy = s.busy := rfl
@[simp] theorem State.refuse_err (s : State) (r : RefusedInput) : (s.refuse r).err = s.err := rfl
@[simp] theorem State.refuse_result (s : State) (r : RefusedInput) : (s.refuse r).result = s.result := rfl
@[simp] theorem State.refuse_seq (s : State) (r : RefusedInput) : (s.refuse r).seq = s.seq := rfl
@[simp] theorem State.refuse_faults (s : State) (r : RefusedInput) : (s.refuse r).faults = s.faults := rfl
@[simp] theorem State.refuse_refused (s : State) (r : RefusedInput) : (s.refuse r).refused = if r ∈ s.refused then s.refused else s.refused ++ [r] := rfl
@[simp] theorem State.refuse_host (s : State) (r : RefusedInput) : (s.refuse r).host = s.host := rfl
@[simp] theorem State.refuse_reads (s : State) (r : RefusedInput) : (s.refuse r).reads = s.reads := rfl
@[simp] theorem State.refuse_irq (s : State) (r : RefusedInput) : (s.refuse r).irq = s.irq := rfl
@[simp] theorem State.refuse_gpio (s : State) (r : RefusedInput) : (s.refuse r).gpio = s.gpio := rfl
@[simp] theorem State.refuse_draws (s : State) (r : RefusedInput) : (s.refuse r).draws = s.draws := rfl
@[simp] theorem State.refuse_trace (s : State) (r : RefusedInput) : (s.refuse r).trace = s.trace ++ [.refused r] := rfl

/-! ### `State.endCommand` -/

@[simp] theorem State.endCommand_cfg (s : State) (e : Option Err) : (s.endCommand e).cfg = s.cfg := rfl
@[simp] theorem State.endCommand_configured (s : State) (e : Option Err) : (s.endCommand e).configured = s.configured := rfl
@[simp] theorem State.endCommand_led (s : State) (e : Option Err) : (s.endCommand e).led = s.led := rfl
@[simp] theorem State.endCommand_dig (s : State) (e : Option Err) : (s.endCommand e).dig = s.dig := rfl
@[simp] theorem State.endCommand_busy (s : State) (e : Option Err) : (s.endCommand e).busy = false := rfl
@[simp] theorem State.endCommand_err (s : State) (e : Option Err) : (s.endCommand e).err = e := rfl
@[simp] theorem State.endCommand_result (s : State) (e : Option Err) : (s.endCommand e).result = s.result := rfl
@[simp] theorem State.endCommand_seq (s : State) (e : Option Err) : (s.endCommand e).seq = .idle := rfl
@[simp] theorem State.endCommand_faults (s : State) (e : Option Err) : (s.endCommand e).faults = s.faults := rfl
@[simp] theorem State.endCommand_refused (s : State) (e : Option Err) : (s.endCommand e).refused = s.refused := rfl
@[simp] theorem State.endCommand_host (s : State) (e : Option Err) : (s.endCommand e).host = s.host := rfl
@[simp] theorem State.endCommand_reads (s : State) (e : Option Err) : (s.endCommand e).reads = s.reads := rfl
@[simp] theorem State.endCommand_irq (s : State) (e : Option Err) : (s.endCommand e).irq = s.irq := rfl
@[simp] theorem State.endCommand_gpio (s : State) (e : Option Err) : (s.endCommand e).gpio = s.gpio := rfl
@[simp] theorem State.endCommand_draws (s : State) (e : Option Err) : (s.endCommand e).draws = s.draws := rfl
@[simp] theorem State.endCommand_trace (s : State) (e : Option Err) : (s.endCommand e).trace = s.trace ++ [.ended e] := rfl

/-! ### `State.issue` -/

@[simp] theorem State.issue_cfg (s : State) (w : Word) : (s.issue w).cfg = s.cfg := rfl
@[simp] theorem State.issue_configured (s : State) (w : Word) : (s.issue w).configured = s.configured := rfl
@[simp] theorem State.issue_led (s : State) (w : Word) : (s.issue w).led = s.led := rfl
@[simp] theorem State.issue_dig (s : State) (w : Word) : (s.issue w).dig = s.dig := rfl
@[simp] theorem State.issue_busy (s : State) (w : Word) : (s.issue w).busy = true := rfl
@[simp] theorem State.issue_err (s : State) (w : Word) : (s.issue w).err = s.err := rfl
@[simp] theorem State.issue_result (s : State) (w : Word) : (s.issue w).result = s.result := rfl
@[simp] theorem State.issue_seq (s : State) (w : Word) : (s.issue w).seq = .running w 0 none := rfl
@[simp] theorem State.issue_faults (s : State) (w : Word) : (s.issue w).faults = s.faults := rfl
@[simp] theorem State.issue_refused (s : State) (w : Word) : (s.issue w).refused = s.refused := rfl
@[simp] theorem State.issue_host (s : State) (w : Word) : (s.issue w).host = s.host := rfl
@[simp] theorem State.issue_reads (s : State) (w : Word) : (s.issue w).reads = s.reads := rfl
@[simp] theorem State.issue_irq (s : State) (w : Word) : (s.issue w).irq = s.irq := rfl
@[simp] theorem State.issue_gpio (s : State) (w : Word) : (s.issue w).gpio = s.gpio := rfl
@[simp] theorem State.issue_draws (s : State) (w : Word) : (s.issue w).draws = s.draws := rfl
@[simp] theorem State.issue_trace (s : State) (w : Word) : (s.issue w).trace = s.trace := rfl

/-! ### `State.writeResult` -/

@[simp] theorem State.writeResult_cfg (s : State) (code : BitVec 4) : (s.writeResult code).cfg = s.cfg := rfl
@[simp] theorem State.writeResult_configured (s : State) (code : BitVec 4) : (s.writeResult code).configured = s.configured := rfl
@[simp] theorem State.writeResult_led (s : State) (code : BitVec 4) : (s.writeResult code).led = s.led := rfl
@[simp] theorem State.writeResult_dig (s : State) (code : BitVec 4) : (s.writeResult code).dig = s.dig := rfl
@[simp] theorem State.writeResult_busy (s : State) (code : BitVec 4) : (s.writeResult code).busy = s.busy := rfl
@[simp] theorem State.writeResult_err (s : State) (code : BitVec 4) : (s.writeResult code).err = s.err := rfl
@[simp] theorem State.writeResult_result (s : State) (code : BitVec 4) : (s.writeResult code).result = code.setWidth 32 := rfl
@[simp] theorem State.writeResult_seq (s : State) (code : BitVec 4) : (s.writeResult code).seq = s.seq := rfl
@[simp] theorem State.writeResult_faults (s : State) (code : BitVec 4) : (s.writeResult code).faults = s.faults := rfl
@[simp] theorem State.writeResult_refused (s : State) (code : BitVec 4) : (s.writeResult code).refused = s.refused := rfl
@[simp] theorem State.writeResult_host (s : State) (code : BitVec 4) : (s.writeResult code).host = s.host := rfl
@[simp] theorem State.writeResult_reads (s : State) (code : BitVec 4) : (s.writeResult code).reads = s.reads := rfl
@[simp] theorem State.writeResult_irq (s : State) (code : BitVec 4) : (s.writeResult code).irq = s.irq := rfl
@[simp] theorem State.writeResult_gpio (s : State) (code : BitVec 4) : (s.writeResult code).gpio = s.gpio := rfl
@[simp] theorem State.writeResult_draws (s : State) (code : BitVec 4) : (s.writeResult code).draws = s.draws := rfl
@[simp] theorem State.writeResult_trace (s : State) (code : BitVec 4) : (s.writeResult code).trace = s.trace := rfl

/-! ### `State.setChain` and `State.chain` -/

@[simp] theorem State.setChain_cfg (s : State) (c : ChainId) (x : Chain) : (s.setChain c x).cfg = s.cfg := by
  cases c <;> rfl
@[simp] theorem State.setChain_configured (s : State) (c : ChainId) (x : Chain) : (s.setChain c x).configured = s.configured := by
  cases c <;> rfl
@[simp] theorem State.setChain_busy (s : State) (c : ChainId) (x : Chain) : (s.setChain c x).busy = s.busy := by
  cases c <;> rfl
@[simp] theorem State.setChain_err (s : State) (c : ChainId) (x : Chain) : (s.setChain c x).err = s.err := by
  cases c <;> rfl
@[simp] theorem State.setChain_result (s : State) (c : ChainId) (x : Chain) : (s.setChain c x).result = s.result := by
  cases c <;> rfl
@[simp] theorem State.setChain_seq (s : State) (c : ChainId) (x : Chain) : (s.setChain c x).seq = s.seq := by
  cases c <;> rfl
@[simp] theorem State.setChain_faults (s : State) (c : ChainId) (x : Chain) : (s.setChain c x).faults = s.faults := by
  cases c <;> rfl
@[simp] theorem State.setChain_refused (s : State) (c : ChainId) (x : Chain) : (s.setChain c x).refused = s.refused := by
  cases c <;> rfl
@[simp] theorem State.setChain_host (s : State) (c : ChainId) (x : Chain) : (s.setChain c x).host = s.host := by
  cases c <;> rfl
@[simp] theorem State.setChain_reads (s : State) (c : ChainId) (x : Chain) : (s.setChain c x).reads = s.reads := by
  cases c <;> rfl
@[simp] theorem State.setChain_irq (s : State) (c : ChainId) (x : Chain) : (s.setChain c x).irq = s.irq := by
  cases c <;> rfl
@[simp] theorem State.setChain_gpio (s : State) (c : ChainId) (x : Chain) : (s.setChain c x).gpio = s.gpio := by
  cases c <;> rfl
@[simp] theorem State.setChain_draws (s : State) (c : ChainId) (x : Chain) : (s.setChain c x).draws = s.draws := by
  cases c <;> rfl
@[simp] theorem State.setChain_trace (s : State) (c : ChainId) (x : Chain) : (s.setChain c x).trace = s.trace := by
  cases c <;> rfl

@[simp] theorem State.chain_setChain_same (s : State) (c : ChainId) (x : Chain) : (s.setChain c x).chain c = x := by
  cases c <;> rfl

theorem State.chain_setChain_other (s : State) (c d : ChainId) (x : Chain) (h : d ≠ c) :
    (s.setChain c x).chain d = s.chain d := by
  cases c <;> cases d <;> first | rfl | exact absurd rfl h

@[simp] theorem State.setChain_setChain (s : State) (c : ChainId) (x y : Chain) :
    (s.setChain c x).setChain c y = s.setChain c y := by
  cases c <;> rfl

@[simp] theorem State.chain_led (s : State) : s.chain .led = s.led := rfl

@[simp] theorem State.chain_dig (s : State) : s.chain .dig = s.dig := rfl

@[simp] theorem State.afterIrq_chain (s : State) (c : ChainId) : s.afterIrq.chain c = s.chain c := by
  cases c <;> rfl
@[simp] theorem State.afterGpio_chain (s : State) (c : ChainId) : s.afterGpio.chain c = s.chain c := by
  cases c <;> rfl
@[simp] theorem State.emit_chain (s : State) (e : TraceEvent) (c : ChainId) : (s.emit e).chain c = s.chain c := by
  cases c <;> rfl
@[simp] theorem State.recordFault_chain (s : State) (f : Fault) (c : ChainId) : (s.recordFault f).chain c = s.chain c := by
  cases c <;> rfl
@[simp] theorem State.refuse_chain (s : State) (r : RefusedInput) (c : ChainId) : (s.refuse r).chain c = s.chain c := by
  cases c <;> rfl
@[simp] theorem State.endCommand_chain (s : State) (e : Option Err) (c : ChainId) : (s.endCommand e).chain c = s.chain c := by
  cases c <;> rfl
@[simp] theorem State.issue_chain (s : State) (w : Word) (c : ChainId) : (s.issue w).chain c = s.chain c := by
  cases c <;> rfl
@[simp] theorem State.writeResult_chain (s : State) (code : BitVec 4) (c : ChainId) : (s.writeResult code).chain c = s.chain c := by
  cases c <;> rfl

/-! ### The levels of a chain -/

@[simp] theorem levelAt_withLevel_same (l : LineLevels) (f : LineFn) (v : Level) : levelAt (withLevel l f v) f = v := by
  cases f <;> rfl

theorem levelAt_withLevel_other (l : LineLevels) (f g : LineFn) (v : Level) (h : g ≠ f) :
    levelAt (withLevel l f v) g = levelAt l g := by
  cases f <;> cases g <;> first | rfl | exact absurd rfl h

@[simp] theorem withLevel_withLevel (l : LineLevels) (f : LineFn) (u v : Level) :
    withLevel (withLevel l f u) f v = withLevel l f v := by
  cases f <;> rfl

@[simp] theorem levelOf_ne_z (b : Bool) : levelOf b ≠ .z := by cases b <;> decide

@[simp] theorem levelOf_false : levelOf false = .lo := rfl

@[simp] theorem levelOf_true : levelOf true = .hi := rfl

theorem levelOf_inj {a b : Bool} (h : levelOf a = levelOf b) : a = b := by
  cases a <;> cases b <;> simp_all

/-! ### The ends of a command -/

@[simp] theorem finish_done (s : State) : finish (.done s) = s.endCommand none := rfl

@[simp] theorem finish_raised (e : Err) (s : State) : finish (.raised e s) = s.endCommand (some e) := rfl

@[simp] theorem finish_faulted (s : State) : finish (.faulted s) = s := rfl

end Sys2Proof.Machine
end

