-- ==== Sys2Proof/Laws/Ops.lean ====
section
/-! SUPPORT. What the operations on lines and chains can do: one lemma per operation, cited instead of unfolding it. -/

namespace Sys2Proof.Machine

/-- Replacing a chain leaves the count of draws. -/
theorem State.setChain_eq_self_draws (s : State) (c : ChainId) (x : Chain) :
    s.setChain c x = { s.setChain c x with draws := s.draws } := by
  cases c <;> rfl

/-- Replacing a chain by itself changes nothing. -/
theorem State.setChain_chain (s : State) (c : ChainId) : s.setChain c (s.chain c) = s := by
  cases c <;> rfl

/-- A state, as a change of nothing in one of its chains. -/
theorem State.eq_setChain_self (s : State) (c : ChainId) :
    s = { s.setChain c (s.chain c) with draws := s.draws } := by
  cases c <;> rfl

/-- A chain's reaction to a line event changes that chain's stages and the count of draws, and nothing else. -/
theorem chainEvent_shape (l : Line) (old new : Level) (s : State) :
    ∃ x n, chainEvent l old new s = { s.setChain l.chain x with draws := n } ∧ x.lines = (s.chain l.chain).lines := by
  have hshift : ∃ x n, shift l.chain s = { s.setChain l.chain x with draws := n } ∧ x.lines = (s.chain l.chain).lines := by
    cases h : (s.chain l.chain).lines.ser <;> simp only [shift, h, shiftIn]
    · exact ⟨_, s.draws, State.setChain_eq_self_draws _ _ _, rfl⟩
    · exact ⟨_, s.draws, State.setChain_eq_self_draws _ _ _, rfl⟩
    · exact ⟨_, _, rfl, rfl⟩
  unfold chainEvent
  split_ifs
  · exact ⟨_, _, rfl, rfl⟩
  · exact ⟨s.chain l.chain, s.draws, s.eq_setChain_self _, rfl⟩
  · exact hshift
  · exact ⟨_, s.draws, State.setChain_eq_self_draws _ _ _, rfl⟩
  · exact ⟨s.chain l.chain, s.draws, s.eq_setChain_self _, rfl⟩

/-- Driving a line changes its chain and the count of draws, and nothing else; the chain's lines are as they were but for the
new level. -/
theorem driveLine_shape' (l : Line) (v : Level) (s : State) :
    ∃ x n, driveLine l v s = { s.setChain l.chain x with draws := n } ∧
      x.lines = withLevel (s.chain l.chain).lines l.fn v := by
  obtain ⟨x, n, h, hl⟩ := chainEvent_shape l (s.line l) v (s.setLine l v)
  refine ⟨x, n, ?_, ?_⟩
  · rw [driveLine, h, State.setLine, State.setChain_setChain]
  · rw [hl, State.setLine, State.chain_setChain_same]

/-- Driving a line changes the chains and the count of draws, and nothing else. -/
theorem driveLine_shape (l : Line) (v : Level) (s : State) :
    ∃ x y n, driveLine l v s = { s with led := x, dig := y, draws := n } := by
  obtain ⟨x, n, h, -⟩ := driveLine_shape' l v s
  cases hc : l.chain
  · exact ⟨x, s.dig, n, by rw [h, hc]; rfl⟩
  · exact ⟨s.led, x, n, by rw [h, hc]; rfl⟩

/-- Driving all lines changes the chains and the count of draws, and nothing else. -/
theorem driveAll_shape (f : Line → Level) (s : State) :
    ∃ x y n, driveAll f s = { s with led := x, dig := y, draws := n } := by
  suffices h : ∀ (ls : List Line) (s : State),
      ∃ x y n, ls.foldl (fun s l => driveLine l (f l) s) s = { s with led := x, dig := y, draws := n } from h allLines s
  intro ls
  induction ls with
  | nil => intro s; exact ⟨s.led, s.dig, s.draws, rfl⟩
  | cons l ls ih =>
    intro s
    obtain ⟨x, y, n, h⟩ := driveLine_shape l (f l) s
    obtain ⟨x', y', n', h'⟩ := ih (driveLine l (f l) s)
    exact ⟨x', y', n', by rw [List.foldl_cons, h', h]⟩

@[simp] theorem driveLine_cfg (l : Line) (v : Level) (s : State) : (driveLine l v s).cfg = s.cfg := by
  obtain ⟨x, y, n, h⟩ := driveLine_shape l v s
  rw [h]

@[simp] theorem driveLine_configured (l : Line) (v : Level) (s : State) : (driveLine l v s).configured = s.configured := by
  obtain ⟨x, y, n, h⟩ := driveLine_shape l v s
  rw [h]

@[simp] theorem driveLine_busy (l : Line) (v : Level) (s : State) : (driveLine l v s).busy = s.busy := by
  obtain ⟨x, y, n, h⟩ := driveLine_shape l v s
  rw [h]

@[simp] theorem driveLine_err (l : Line) (v : Level) (s : State) : (driveLine l v s).err = s.err := by
  obtain ⟨x, y, n, h⟩ := driveLine_shape l v s
  rw [h]

@[simp] theorem driveLine_result (l : Line) (v : Level) (s : State) : (driveLine l v s).result = s.result := by
  obtain ⟨x, y, n, h⟩ := driveLine_shape l v s
  rw [h]

@[simp] theorem driveLine_seq (l : Line) (v : Level) (s : State) : (driveLine l v s).seq = s.seq := by
  obtain ⟨x, y, n, h⟩ := driveLine_shape l v s
  rw [h]

@[simp] theorem driveLine_faults (l : Line) (v : Level) (s : State) : (driveLine l v s).faults = s.faults := by
  obtain ⟨x, y, n, h⟩ := driveLine_shape l v s
  rw [h]

@[simp] theorem driveLine_refused (l : Line) (v : Level) (s : State) : (driveLine l v s).refused = s.refused := by
  obtain ⟨x, y, n, h⟩ := driveLine_shape l v s
  rw [h]

@[simp] theorem driveLine_host (l : Line) (v : Level) (s : State) : (driveLine l v s).host = s.host := by
  obtain ⟨x, y, n, h⟩ := driveLine_shape l v s
  rw [h]

@[simp] theorem driveLine_reads (l : Line) (v : Level) (s : State) : (driveLine l v s).reads = s.reads := by
  obtain ⟨x, y, n, h⟩ := driveLine_shape l v s
  rw [h]

@[simp] theorem driveLine_irq (l : Line) (v : Level) (s : State) : (driveLine l v s).irq = s.irq := by
  obtain ⟨x, y, n, h⟩ := driveLine_shape l v s
  rw [h]

@[simp] theorem driveLine_gpio (l : Line) (v : Level) (s : State) : (driveLine l v s).gpio = s.gpio := by
  obtain ⟨x, y, n, h⟩ := driveLine_shape l v s
  rw [h]

@[simp] theorem driveLine_trace (l : Line) (v : Level) (s : State) : (driveLine l v s).trace = s.trace := by
  obtain ⟨x, y, n, h⟩ := driveLine_shape l v s
  rw [h]

@[simp] theorem driveAll_cfg (f : Line → Level) (s : State) : (driveAll f s).cfg = s.cfg := by
  obtain ⟨x, y, n, h⟩ := driveAll_shape f s
  rw [h]

@[simp] theorem driveAll_configured (f : Line → Level) (s : State) : (driveAll f s).configured = s.configured := by
  obtain ⟨x, y, n, h⟩ := driveAll_shape f s
  rw [h]

@[simp] theorem driveAll_busy (f : Line → Level) (s : State) : (driveAll f s).busy = s.busy := by
  obtain ⟨x, y, n, h⟩ := driveAll_shape f s
  rw [h]

@[simp] theorem driveAll_err (f : Line → Level) (s : State) : (driveAll f s).err = s.err := by
  obtain ⟨x, y, n, h⟩ := driveAll_shape f s
  rw [h]

@[simp] theorem driveAll_result (f : Line → Level) (s : State) : (driveAll f s).result = s.result := by
  obtain ⟨x, y, n, h⟩ := driveAll_shape f s
  rw [h]

@[simp] theorem driveAll_seq (f : Line → Level) (s : State) : (driveAll f s).seq = s.seq := by
  obtain ⟨x, y, n, h⟩ := driveAll_shape f s
  rw [h]

@[simp] theorem driveAll_faults (f : Line → Level) (s : State) : (driveAll f s).faults = s.faults := by
  obtain ⟨x, y, n, h⟩ := driveAll_shape f s
  rw [h]

@[simp] theorem driveAll_refused (f : Line → Level) (s : State) : (driveAll f s).refused = s.refused := by
  obtain ⟨x, y, n, h⟩ := driveAll_shape f s
  rw [h]

@[simp] theorem driveAll_host (f : Line → Level) (s : State) : (driveAll f s).host = s.host := by
  obtain ⟨x, y, n, h⟩ := driveAll_shape f s
  rw [h]

@[simp] theorem driveAll_reads (f : Line → Level) (s : State) : (driveAll f s).reads = s.reads := by
  obtain ⟨x, y, n, h⟩ := driveAll_shape f s
  rw [h]

@[simp] theorem driveAll_irq (f : Line → Level) (s : State) : (driveAll f s).irq = s.irq := by
  obtain ⟨x, y, n, h⟩ := driveAll_shape f s
  rw [h]

@[simp] theorem driveAll_gpio (f : Line → Level) (s : State) : (driveAll f s).gpio = s.gpio := by
  obtain ⟨x, y, n, h⟩ := driveAll_shape f s
  rw [h]

@[simp] theorem driveAll_trace (f : Line → Level) (s : State) : (driveAll f s).trace = s.trace := by
  obtain ⟨x, y, n, h⟩ := driveAll_shape f s
  rw [h]

/-- Driving a line leaves the other chain as it is. -/
theorem driveLine_chain_other (l : Line) (v : Level) (s : State) (d : ChainId) (h : d ≠ l.chain) :
    (driveLine l v s).chain d = s.chain d := by
  obtain ⟨x, n, hx, -⟩ := driveLine_shape' l v s
  rw [hx]
  exact State.chain_setChain_other s l.chain d x h

/-- The lines of a chain after one of them is driven: that line has the new level, the others are as they were. -/
@[simp] theorem driveLine_lines (l : Line) (v : Level) (s : State) :
    ((driveLine l v s).chain l.chain).lines = withLevel (s.chain l.chain).lines l.fn v := by
  obtain ⟨x, n, hx, hl⟩ := driveLine_shape' l v s
  rw [hx, ← hl]
  exact congrArg Chain.lines (State.chain_setChain_same s l.chain x)

/-- The level of a driven line. -/
theorem driveLine_line_same (l : Line) (v : Level) (s : State) : (driveLine l v s).line l = v := by
  simp [State.line]

/-- The level of any other line. -/
theorem driveLine_line_other (l m : Line) (v : Level) (s : State) (h : m ≠ l) :
    (driveLine l v s).line m = s.line m := by
  obtain ⟨c, f⟩ := l
  obtain ⟨d, g⟩ := m
  by_cases hc : d = c
  · subst hc
    have hl := driveLine_lines ⟨d, f⟩ v s
    simp only [State.line] at hl ⊢
    rw [hl]
    exact levelAt_withLevel_other _ _ _ _ (fun e => h (by rw [e]))
  · simp only [State.line]
    rw [driveLine_chain_other ⟨c, f⟩ v s d hc]

/-- The bit a driven level stands for. -/
def bitOf : Level → Bool
  | .hi => true
  | _ => false

/-- A shift takes the bit of a driven serial-data line (R37). -/
theorem shift_driven (c : ChainId) (s : State) (h : (s.chain c).lines.ser ≠ .z) :
    shift c s = shiftIn c (bitOf (s.chain c).lines.ser) s := by
  unfold shift
  cases hs : (s.chain c).lines.ser
  · rfl
  · rfl
  · exact absurd hs h

/-- What driving a line does to its chain, where no level is undriven (R37 to R39): a rising clock shifts, a rising latch
copies, and nothing else changes the stages. -/
theorem driveLine_chain_driven (l : Line) (v : Level) (s : State) (ho : s.line l ≠ .z) (hv : v ≠ .z)
    (hs : l.fn = .clk → (s.chain l.chain).lines.ser ≠ .z) :
    (driveLine l v s).chain l.chain =
      { lines := withLevel (s.chain l.chain).lines l.fn v
        sr :=
          if l.fn = .clk ∧ s.line l = .lo ∧ v = .hi then
            (bitOf (s.chain l.chain).lines.ser :: (s.chain l.chain).sr).take (s.cfg.depth l.chain)
          else (s.chain l.chain).sr
        st := if l.fn = .lat ∧ s.line l = .lo ∧ v = .hi then (s.chain l.chain).sr else (s.chain l.chain).st
        redraws :=
          if (l.fn = .clk ∨ l.fn = .lat) ∧ s.line l = .lo ∧ v = .hi then (s.chain l.chain).redraws + 1
          else (s.chain l.chain).redraws } := by
  have hz : ¬(s.line l = .z ∨ v = .z) := by simp [ho, hv]
  simp only [driveLine, chainEvent, if_neg hz]
  by_cases he : s.line l = v
  · have h1 : ¬(l.fn = .clk ∧ s.line l = .lo ∧ v = .hi) := by rw [he]; rintro ⟨-, rfl, h⟩; cases h
    have h2 : ¬(l.fn = .lat ∧ s.line l = .lo ∧ v = .hi) := by rw [he]; rintro ⟨-, rfl, h⟩; cases h
    have h3 : ¬((l.fn = .clk ∨ l.fn = .lat) ∧ s.line l = .lo ∧ v = .hi) := by rw [he]; rintro ⟨-, rfl, h⟩; cases h
    simp only [if_pos he, if_neg h1, if_neg h2, if_neg h3, State.setLine, State.chain_setChain_same]
  · rw [if_neg he]
    by_cases h1 : l.fn = .clk ∧ s.line l = .lo ∧ v = .hi
    · have h2 : ¬(l.fn = .lat ∧ s.line l = .lo ∧ v = .hi) := by rw [h1.1]; rintro ⟨h, -⟩; cases h
      have hser : ((s.setLine l v).chain l.chain).lines.ser = (s.chain l.chain).lines.ser := by
        rw [State.setLine, State.chain_setChain_same, h1.1]
        rfl
      simp only [if_pos h1, if_neg h2]
      rw [shift_driven _ _ (by rw [hser]; exact hs h1.1), hser]
      rw [if_pos ⟨Or.inl h1.1, h1.2⟩]
      simp [shiftIn, State.setLine]
    · rw [if_neg h1, if_neg h1]
      by_cases h2 : l.fn = .lat ∧ s.line l = .lo ∧ v = .hi
      · have h3 : (l.fn = .clk ∨ l.fn = .lat) ∧ s.line l = .lo ∧ v = .hi := ⟨Or.inr h2.1, h2.2⟩
        rw [if_pos h3]
        simp [if_pos h2, latch, State.setLine]
      · have h3 : ¬((l.fn = .clk ∨ l.fn = .lat) ∧ s.line l = .lo ∧ v = .hi) := by
          rintro ⟨h | h, h'⟩
          · exact h1 ⟨h, h'⟩
          · exact h2 ⟨h, h'⟩
        rw [if_neg h3]
        simp [if_neg h2, State.setLine]

/-! ### All lines -/

/-- The four lines of one chain take levels, in line order. -/
def driveChain (c : ChainId) (f : Line → Level) (s : State) : State :=
  driveLine ⟨c, .oe⟩ (f ⟨c, .oe⟩) (driveLine ⟨c, .lat⟩ (f ⟨c, .lat⟩)
    (driveLine ⟨c, .clk⟩ (f ⟨c, .clk⟩) (driveLine ⟨c, .ser⟩ (f ⟨c, .ser⟩) s)))

/-- All lines: the LED chain's four, then the Digit chain's. -/
theorem driveAll_eq (f : Line → Level) (s : State) : driveAll f s = driveChain .dig f (driveChain .led f s) := by
  simp only [driveAll, allLines, List.foldl_cons, List.foldl_nil, driveChain]

theorem driveChain_other (c d : ChainId) (f : Line → Level) (s : State) (h : d ≠ c) :
    (driveChain c f s).chain d = s.chain d := by
  unfold driveChain
  rw [driveLine_chain_other _ _ _ d h, driveLine_chain_other _ _ _ d h, driveLine_chain_other _ _ _ d h,
    driveLine_chain_other _ _ _ d h]

theorem driveChain_cfg (c : ChainId) (f : Line → Level) (s : State) : (driveChain c f s).cfg = s.cfg := by
  unfold driveChain
  rw [driveLine_cfg, driveLine_cfg, driveLine_cfg, driveLine_cfg]

theorem driveChain_lines (c : ChainId) (f : Line → Level) (s : State) :
    ((driveChain c f s).chain c).lines =
      { ser := f ⟨c, .ser⟩, clk := f ⟨c, .clk⟩, lat := f ⟨c, .lat⟩, oe := f ⟨c, .oe⟩ } := by
  unfold driveChain
  have h1 := driveLine_lines ⟨c, .ser⟩ (f ⟨c, .ser⟩) s
  have h2 := driveLine_lines ⟨c, .clk⟩ (f ⟨c, .clk⟩) (driveLine ⟨c, .ser⟩ (f ⟨c, .ser⟩) s)
  have h3 := driveLine_lines ⟨c, .lat⟩ (f ⟨c, .lat⟩)
    (driveLine ⟨c, .clk⟩ (f ⟨c, .clk⟩) (driveLine ⟨c, .ser⟩ (f ⟨c, .ser⟩) s))
  have h4 := driveLine_lines ⟨c, .oe⟩ (f ⟨c, .oe⟩) (driveLine ⟨c, .lat⟩ (f ⟨c, .lat⟩)
    (driveLine ⟨c, .clk⟩ (f ⟨c, .clk⟩) (driveLine ⟨c, .ser⟩ (f ⟨c, .ser⟩) s)))
  dsimp only at h1 h2 h3 h4
  rw [h4, h3, h2, h1]
  rfl

/-- A chain's lines after all lines take levels. -/
theorem driveAll_lines (f : Line → Level) (s : State) (c : ChainId) :
    ((driveAll f s).chain c).lines =
      { ser := f ⟨c, .ser⟩, clk := f ⟨c, .clk⟩, lat := f ⟨c, .lat⟩, oe := f ⟨c, .oe⟩ } := by
  rw [driveAll_eq]
  cases c
  · rw [driveChain_other _ _ _ _ (by decide), driveChain_lines]
  · rw [driveChain_lines]

/-- Each line after all lines take levels. -/
theorem driveAll_line (f : Line → Level) (s : State) (l : Line) : (driveAll f s).line l = f l := by
  obtain ⟨c, g⟩ := l
  rw [State.line, driveAll_lines]
  cases g <;> rfl

/-- A line that becomes undriven redraws its chain's stages (R41). -/
theorem driveLine_undriven (c : ChainId) (f : LineFn) (s : State) :
    ((driveLine ⟨c, f⟩ .z s).chain c).sr = Config.freeStages s.draws (s.cfg.depth c) ∧
      ((driveLine ⟨c, f⟩ .z s).chain c).st = Config.freeStages (s.draws + 1) (s.cfg.depth c) := by
  cases c <;> simp [driveLine, chainEvent, undrivenHavoc, State.setLine, State.setChain, State.chain]

/-- After all lines are released each chain's stages are drawn values (R41). -/
theorem driveAll_undriven (s : State) (c : ChainId) :
    ∃ n, ((driveAll (fun _ => .z) s).chain c).sr = Config.freeStages n (s.cfg.depth c) ∧
      ((driveAll (fun _ => .z) s).chain c).st = Config.freeStages (n + 1) (s.cfg.depth c) := by
  have h : ∀ (c : ChainId) (s : State), ∃ n, ((driveChain c (fun _ => .z) s).chain c).sr = Config.freeStages n (s.cfg.depth c) ∧
      ((driveChain c (fun _ => .z) s).chain c).st = Config.freeStages (n + 1) (s.cfg.depth c) := by
    intro c s
    have hu : ∀ u : State, u.cfg = s.cfg →
        ∃ n, ((driveLine ⟨c, .oe⟩ .z u).chain c).sr = Config.freeStages n (s.cfg.depth c) ∧
          ((driveLine ⟨c, .oe⟩ .z u).chain c).st = Config.freeStages (n + 1) (s.cfg.depth c) :=
      fun u hu => ⟨u.draws, hu ▸ driveLine_undriven c .oe u⟩
    exact hu _ (by rw [driveLine_cfg, driveLine_cfg, driveLine_cfg])
  rw [driveAll_eq]
  cases c
  · rw [driveChain_other _ _ _ _ (by decide)]
    exact h .led s
  · have h' := h .dig (driveChain .led (fun _ => .z) s)
    rw [driveChain_cfg] at h'
    exact h'

/-! ### The reset event -/

/-- What the reset event leaves as it was (R171) and what it sets (R169). -/
theorem resetEvent_shape (s : State) :
    ∃ x y n, resetEvent s =
      { s with led := x, dig := y, draws := n, configured := false, busy := false, err := none,
               result := 0, seq := .idle } := by
  obtain ⟨x, y, n, h⟩ := driveAll_shape (fun _ => .z) s
  unfold resetEvent
  rw [h]
  exact ⟨x, y, n, rfl⟩

/-- The chains after the reset event. -/
theorem resetEvent_chain (s : State) (c : ChainId) : (resetEvent s).chain c = (driveAll (fun _ => .z) s).chain c := by
  unfold resetEvent
  generalize driveAll (fun _ => .z) s = u
  cases c <;> rfl

end Sys2Proof.Machine
end

