-- ==== Sys2Proof/Laws/Triple.lean ====
section
/-! SUPPORT. A small logic of pseudocode: what holds where a program ends, with success or with an error, from every state that
meets a condition. A program that meets a triple does not fault. -/

namespace Sys2Proof.Machine

/-- An end of a program meets `ok` on success and `err` on an error, and is no fault. -/
def Holds (x : Exit) (ok : State → Prop) (err : Err → State → Prop) : Prop :=
  match x with
  | .done s => ok s
  | .raised e s => err e s
  | .faulted _ => False

@[simp] theorem holds_done (s : State) (ok : State → Prop) (err : Err → State → Prop) :
    Holds (.done s) ok err ↔ ok s := Iff.rfl

@[simp] theorem holds_raised (e : Err) (s : State) (ok : State → Prop) (err : Err → State → Prop) :
    Holds (.raised e s) ok err ↔ err e s := Iff.rfl

@[simp] theorem holds_faulted (s : State) (ok : State → Prop) (err : Err → State → Prop) :
    Holds (.faulted s) ok err ↔ False := Iff.rfl

theorem Holds.mono {x : Exit} {ok ok' : State → Prop} {err err' : Err → State → Prop} (h : Holds x ok err)
    (hok : ∀ s, ok s → ok' s) (herr : ∀ e s, err e s → err' e s) : Holds x ok' err' := by
  cases x
  · exact hok _ h
  · exact herr _ _ h
  · exact h

/-- From every state that meets `P`, the program ends without a fault, in `Q` on success and in `E` on an error. -/
def Triple (P : State → Prop) (p : Prog) (Q : State → Prop) (E : Err → State → Prop) : Prop :=
  ∀ s, P s → Holds (runProg p s) Q E

theorem Triple.skip {P : State → Prop} {E : Err → State → Prop} : Triple P .skip P E := fun _ h => h

theorem Triple.seq {P Q R : State → Prop} {E : Err → State → Prop} {a b : Prog} (ha : Triple P a Q E)
    (hb : Triple Q b R E) : Triple P (.seq a b) R E := by
  intro s hs
  have h := ha s hs
  simp only [runProg]
  cases hr : runProg a s with
  | done t => rw [hr] at h; exact hb t h
  | raised e t => rw [hr] at h; exact h
  | faulted t => rw [hr] at h; exact h

/-- `try { a } finally { b }` (R152): from success of `a`, `b` ends in `R` or `E`; from an error of `a`, a success of `b` carries
that error on, and an error of `b` replaces it (R153). -/
theorem Triple.guarded {P Q R : State → Prop} {E F : Err → State → Prop} {a : Prog} {b : Op} (ha : Triple P a Q F)
    (hok : ∀ s, Q s → Holds (runOp b s) R E) (herr : ∀ e s, F e s → Holds (runOp b s) (E e) E) :
    Triple P (.guarded a b) R E := by
  intro s hs
  have h := ha s hs
  simp only [runProg]
  cases hr : runProg a s with
  | done t => rw [hr] at h; exact hok t h
  | raised e t =>
    rw [hr] at h
    have h' := herr e t h
    simp only
    cases hb : runOp b t <;> rw [hb] at h' <;> exact h'
  | faulted t => rw [hr] at h; exact h

theorem Triple.op {P Q : State → Prop} {E : Err → State → Prop} {o : Op} (h : ∀ s, P s → Holds (runOp o s) Q E) :
    Triple P (.op o) Q E := h

theorem Triple.conseq {P P' Q Q' : State → Prop} {E E' : Err → State → Prop} {p : Prog} (h : Triple P p Q E)
    (hp : ∀ s, P' s → P s) (hq : ∀ s, Q s → Q' s) (he : ∀ e s, E e s → E' e s) : Triple P' p Q' E' :=
  fun s hs => (h s (hp s hs)).mono hq he

/-- The rule for a condition that is part of an outer one: what the program keeps may be carried along. -/
theorem Triple.forState {P : State → Prop} {Q : State → Prop} {E : Err → State → Prop} {p : Prog}
    (h : ∀ s, P s → Triple (fun t => t = s) p Q E) : Triple P p Q E :=
  fun s hs => h s hs s rfl

/-! ### The operations -/

/-- What a set can do on configured lines (R28). -/
theorem gpioSet_holds (l : Line) (v : Bool) (s : State) (hc : s.configured = true) {Q : State → Prop}
    {E : Err → State → Prop} (hok : Q ((driveLine l (levelOf v) s.afterGpio).emit (.set l v true)))
    (herr : ∀ u, E .hwAccessFailure ((driveLine l (levelOf u) s.afterGpio).emit (.set l v false))) :
    Holds (gpioSet l v s) Q E := by
  unfold gpioSet
  rw [if_neg (by simp [hc])]
  split
  · exact hok
  · exact herr _

/-- On lines that are not configured a set faults (R28, R149). -/
theorem gpioSet_unconfigured (l : Line) (v : Bool) (s : State) (hc : s.configured = false) :
    gpioSet l v s = .faulted (s.recordFault .unconfigured) := by
  simp [gpioSet, hc]

/-- What an abort point can do (R150). -/
theorem abortPoint_holds (s : State) {Q : State → Prop} {E : Err → State → Prop}
    (hok : Q (s.afterIrq.emit (.abortPoint false)))
    (herr : E .hostInterrupt (s.afterIrq.emit (.abortPoint true))) : Holds (abortPoint s) Q E := by
  unfold abortPoint
  split
  · exact herr
  · exact hok

/-- What a hold can do (R84). -/
theorem hold_holds (t : Nat) (s : State) {Q : State → Prop} {E : Err → State → Prop}
    (hok : Q (s.afterIrq.emit (.hold t false))) (herr : E .hostInterrupt (s.afterIrq.emit (.hold t true))) :
    Holds (hold t s) Q E := by
  unfold hold
  split
  · exact herr
  · exact hok

/-- What a configure can do (R27). -/
theorem gpioConfigure_holds (v : Bool) (s : State) {Q : State → Prop} {E : Err → State → Prop}
    (hok : Q (State.emit { driveAll (fun _ => levelOf v) s.afterGpio with configured := true } (.configure v true)))
    (herr : ∀ f, E .hwAccessFailure (State.emit { driveAll f s.afterGpio with configured := false } (.configure v false))) :
    Holds (gpioConfigure v s) Q E := by
  unfold gpioConfigure
  split
  · exact hok
  · exact herr _

/-- What a release can do (R29). -/
theorem gpioRelease_holds (s : State) {Q : State → Prop} {E : Err → State → Prop} (hok : Q (releaseLines s))
    (herr : E .hwAccessFailure (releaseLines s)) : Holds (gpioRelease s) Q E := by
  unfold gpioRelease
  split
  · exact hok
  · exact herr

/-! ### What every step of a program keeps, the program keeps -/

/-- The operations of a program. -/
def opsOf : Prog → List Op
  | .skip => []
  | .op o => [o]
  | .seq a b => opsOf a ++ opsOf b
  | .guarded a b => opsOf a ++ [b]

/-- A condition that every operation of a program keeps, whether it succeeds or fails, holds wherever the program ends. -/
theorem Triple.keeps {I : State → Prop} (p : Prog)
    (h : ∀ o ∈ opsOf p, ∀ s, I s → Holds (runOp o s) I (fun _ => I)) : Triple I p I (fun _ => I) := by
  induction p with
  | skip => exact Triple.skip
  | op o => exact Triple.op (h o (by simp [opsOf]))
  | seq a b iha ihb =>
    exact Triple.seq (iha fun o ho => h o (by simp [opsOf, ho])) (ihb fun o ho => h o (by simp [opsOf, ho]))
  | guarded a b iha =>
    exact Triple.guarded (iha fun o ho => h o (by simp [opsOf, ho])) (h b (by simp [opsOf]))
      (fun _ => h b (by simp [opsOf]))

/-- A set, a hold or an abort point. -/
def isPlain : Op → Bool
  | .set _ _ => true
  | .hold _ => true
  | .abort => true
  | .configure _ => false
  | .release => false

/-! ### A quiet environment -/

theorem quiet_irqNow {s : State} (h : s.quiet = true) : s.irqNow = false := by
  simp only [State.quiet, Bool.and_eq_true, List.all_eq_true, decide_eq_true_eq] at h
  unfold State.irqNow Feed.now
  cases hl : s.irq.listed with
  | nil => simp [h.1.1.2]
  | cons b bs => simpa [hl] using h.1.1.1 b (by simp [hl])

theorem quiet_gpioNow {s : State} (h : s.quiet = true) : s.gpioNow.ok = true := by
  simp only [State.quiet, Bool.and_eq_true, List.all_eq_true, decide_eq_true_eq] at h
  unfold State.gpioNow Feed.now
  cases hl : s.gpio.listed with
  | nil =>
    cases hr : s.gpio.rest with
    | none => simp [hr] at h
    | some d => simpa [hr] using h.2
  | cons b bs => exact h.1.2 b (by simp [hl])

theorem quiet_congr {s t : State} (hi : t.irq = s.irq) (hg : t.gpio = s.gpio) : t.quiet = s.quiet := by
  simp only [State.quiet, hi, hg]

theorem quiet_afterIrq {s : State} (h : s.quiet = true) : s.afterIrq.quiet = true := by
  simp only [State.quiet, Bool.and_eq_true, List.all_eq_true, decide_eq_true_eq] at h ⊢
  exact ⟨⟨⟨fun b hb => h.1.1.1 b (List.mem_of_mem_tail hb), h.1.1.2⟩, h.1.2⟩, h.2⟩

theorem quiet_afterGpio {s : State} (h : s.quiet = true) : s.afterGpio.quiet = true := by
  simp only [State.quiet, Bool.and_eq_true, List.all_eq_true, decide_eq_true_eq] at h ⊢
  exact ⟨⟨h.1.1, fun d hd => h.1.2 d (List.mem_of_mem_tail hd)⟩, h.2⟩

/-- The trace of an operation that succeeds. -/
def quietEvent : Op → TraceEvent
  | .configure v => .configure v true
  | .set l v => .set l v true
  | .release => .release true
  | .hold t => .hold t false
  | .abort => .abortPoint false

/-- The trace of a program in a quiet environment. -/
def quietTrace (p : Prog) : List TraceEvent := (opsOf p).map quietEvent

/-- In a quiet environment a plain program on configured lines runs to its end, and its trace is that of its operations. -/
theorem runProg_quiet (p : Prog) (hp : ∀ o ∈ opsOf p, isPlain o = true) (s : State) (hc : s.configured = true)
    (hq : s.quiet = true) :
    ∃ t, runProg p s = .done t ∧ t.configured = true ∧ t.quiet = true ∧ t.trace = s.trace ++ quietTrace p := by
  have hop : ∀ (o : Op), isPlain o = true → ∀ s : State, s.configured = true → s.quiet = true →
      ∃ t, runOp o s = .done t ∧ t.configured = true ∧ t.quiet = true ∧ t.trace = s.trace ++ [quietEvent o] := by
    intro o ho s hc hq
    have h1 := quiet_afterGpio hq
    have h2 := quiet_afterIrq hq
    cases o with
    | configure v => cases ho
    | release => cases ho
    | set l v =>
      refine ⟨(driveLine l (levelOf v) s.afterGpio).emit (.set l v true), ?_, ?_, ?_, ?_⟩
      · simp [runOp, gpioSet, hc, quiet_gpioNow hq]
      · simp [hc]
      · rw [quiet_congr (s := s.afterGpio) (by simp) (by simp)]; exact h1
      · simp [quietEvent]
    | hold t =>
      refine ⟨s.afterIrq.emit (.hold t false), by simp [runOp, hold, quiet_irqNow hq], by simp [hc], ?_, by simp [quietEvent]⟩
      rw [quiet_congr (s := s.afterIrq) (by simp) (by simp)]; exact h2
    | abort =>
      refine ⟨s.afterIrq.emit (.abortPoint false), by simp [runOp, abortPoint, quiet_irqNow hq], by simp [hc], ?_,
        by simp [quietEvent]⟩
      rw [quiet_congr (s := s.afterIrq) (by simp) (by simp)]; exact h2
  induction p generalizing s with
  | skip => exact ⟨s, rfl, hc, hq, by simp [quietTrace, opsOf]⟩
  | op o =>
    obtain ⟨t, h⟩ := hop o (hp o (by simp [opsOf])) s hc hq
    exact ⟨t, h.1, h.2.1, h.2.2.1, by simpa [quietTrace, opsOf] using h.2.2.2⟩
  | seq a b iha ihb =>
    obtain ⟨t, h1, h2, h3, h4⟩ := iha (fun o ho => hp o (by simp [opsOf, ho])) s hc hq
    obtain ⟨u, h5, h6, h7, h8⟩ := ihb (fun o ho => hp o (by simp [opsOf, ho])) t h2 h3
    exact ⟨u, by simp [runProg, h1, h5], h6, h7, by rw [h8, h4]; simp [quietTrace, opsOf]⟩
  | guarded a b iha =>
    obtain ⟨t, h1, h2, h3, h4⟩ := iha (fun o ho => hp o (by simp [opsOf, ho])) s hc hq
    obtain ⟨u, h5, h6, h7, h8⟩ := hop b (hp b (by simp [opsOf])) t h2 h3
    exact ⟨u, by simp [runProg, h1, h5], h6, h7, by rw [h8, h4]; simp [quietTrace, opsOf]⟩

end Sys2Proof.Machine
end

