-- ==== Sys2Proof/Laws/Chains.lean ====
section
/-! SUPPORT. What pulses, loads and the configure do to a chain, on chains alone: the machine's operations on driven lines, as
functions of a chain. -/

namespace Sys2Proof.Machine

/-- A chain after one of its driven lines takes a level (R37 to R39), at depth `d`. -/
def Chain.drive (d : Nat) (f : LineFn) (b : Bool) (x : Chain) : Chain :=
  { lines := withLevel x.lines f (levelOf b)
    sr := if f = .clk ∧ x.lines.clk = .lo ∧ b = true then (bitOf x.lines.ser :: x.sr).take d else x.sr
    st := if f = .lat ∧ x.lines.lat = .lo ∧ b = true then x.sr else x.st
    redraws :=
      if (f = .clk ∨ f = .lat) ∧ levelAt x.lines f = .lo ∧ b = true then x.redraws + 1 else x.redraws }

/-- The lines are configured, the board is `g`, and chain `c` is `x`. -/
def At (c : ChainId) (g : Board) (x : Chain) (t : State) : Prop := t.configured = true ∧ t.cfg = g ∧ t.chain c = x

/-- Driving a line of a chain with driven lines. -/
theorem driveLine_at (c : ChainId) (f : LineFn) (b : Bool) (t : State) (ho : levelAt (t.chain c).lines f ≠ .z)
    (hs : f = .clk → (t.chain c).lines.ser ≠ .z) :
    (driveLine ⟨c, f⟩ (levelOf b) t).chain c = (t.chain c).drive (t.cfg.depth c) f b := by
  have h := driveLine_chain_driven ⟨c, f⟩ (levelOf b) t ho (levelOf_ne_z b) hs
  simp only at h
  rw [h]
  have hb : (levelOf b = .hi) = (b = true) := by cases b <;> simp
  unfold Chain.drive
  cases f <;> simp [State.line, levelAt, hb]

/-- A set of a line of a chain with driven lines. -/
theorem set_at {c : ChainId} {g : Board} {x : Chain} (f : LineFn) (b : Bool) (ho : levelAt x.lines f ≠ .z)
    (hs : f = .clk → x.lines.ser ≠ .z) :
    Triple (At c g x) (.op (.set ⟨c, f⟩ b)) (At c g (x.drive (g.depth c) f b))
      (fun _ t => ∃ u, At c g (x.drive (g.depth c) f u) t) := by
  rintro t ⟨hc, rfl, rfl⟩
  have key : ∀ u, (driveLine ⟨c, f⟩ (levelOf u) t.afterGpio).chain c = (t.chain c).drive (t.cfg.depth c) f u := by
    intro u
    have h := driveLine_at c f u t.afterGpio (by simpa using ho) (by simpa using hs)
    simpa using h
  refine gpioSet_holds _ _ _ hc ⟨by simp [hc], by simp, by simp [key]⟩ (fun u => ⟨u, by simp [hc], by simp, by simp [key]⟩)

theorem linesDriven_withLevel_lo {l : LineLevels} (f : LineFn) (h : linesDriven l = true) :
    linesDriven (withLevel l f .lo) = true := by
  cases f <;> simp_all [linesDriven, withLevel]

/-- A line of a chain with driven lines goes to 0: a fall or no change at all, so no stage moves (R39). -/
theorem driveLine_lo {c : ChainId} {t : State} (f : LineFn) (hd : linesDriven (t.chain c).lines = true) :
    (driveLine ⟨c, f⟩ .lo t).chain c = { t.chain c with lines := withLevel (t.chain c).lines f .lo } := by
  have hz : ∀ g, levelAt (t.chain c).lines g ≠ .z := by
    intro g
    cases g <;> simp_all [linesDriven, levelAt]
  have h := driveLine_at c f false t (hz f) (fun _ => hz .ser)
  simpa [Chain.drive, levelOf] using h

/-- All four lines of a chain with driven lines go to 0. -/
theorem driveChain_lo {c : ChainId} {t : State} (hd : linesDriven (t.chain c).lines = true) :
    (driveChain c (fun _ => .lo) t).chain c = { t.chain c with lines := ⟨.lo, .lo, .lo, .lo⟩ } := by
  have drive : ∀ f u x, u.chain c = x → linesDriven x.lines = true →
      (driveLine ⟨c, f⟩ .lo u).chain c = { x with lines := withLevel x.lines f .lo } ∧
        linesDriven (withLevel x.lines f .lo) = true := by
    rintro f u _ rfl h
    exact ⟨driveLine_lo f h, linesDriven_withLevel_lo f h⟩
  obtain ⟨e1, d1⟩ := drive .ser t _ rfl hd
  obtain ⟨e2, d2⟩ := drive .clk _ _ e1 d1
  obtain ⟨e3, d3⟩ := drive .lat _ _ e2 d2
  exact (drive .oe _ _ e3 d3).1

/-- All lines go to 0: what becomes of a chain whose lines were driven. -/
theorem driveAll_lo {c : ChainId} {t : State} (hd : linesDriven (t.chain c).lines = true) :
    (driveAll (fun _ => .lo) t).chain c = { t.chain c with lines := ⟨.lo, .lo, .lo, .lo⟩ } := by
  rw [driveAll_eq]
  cases c with
  | led => rw [driveChain_other _ _ _ _ (by decide), driveChain_lo hd]
  | dig =>
    have hdig := driveChain_other .led .dig (fun _ => .lo) t (by decide)
    rw [driveChain_lo (hdig ▸ hd), hdig]

/-- The configure of `INITIALIZE` on lines that are driven (R27, R121, R123): the chain's four lines are at 0, a clock or latch that
was left at 1 among them, and no stage has moved. So no pulse of a load that follows it starts with its line at 1, which is what
R176's loss of a bit or a latch needs (log 25). -/
theorem configure_at {c : ChainId} {g : Board} {x : Chain} (hd : linesDriven x.lines = true) :
    Triple (At c g x) (.op (.configure initLevel)) (At c g { x with lines := ⟨.lo, .lo, .lo, .lo⟩ })
      (fun _ t => t.configured = false) := by
  rintro t ⟨-, rfl, rfl⟩
  have hlo := driveAll_lo (t := t.afterGpio) (c := c) (by simpa using hd)
  refine gpioConfigure_holds _ _ ⟨rfl, by simp, ?_⟩ (fun f => rfl)
  cases c <;> simpa [initLevel, levelOf] using hlo

/-- A hold or an abort point leaves a chain. -/
theorem hold_at {c : ChainId} {g : Board} {x : Chain} (m : Nat) :
    Triple (At c g x) (.op (.hold m)) (At c g x) (fun _ => At c g x) := by
  rintro t ⟨hc, rfl, rfl⟩
  exact hold_holds _ _ ⟨by simp [hc], by simp, by simp⟩ ⟨by simp [hc], by simp, by simp⟩

theorem abort_at {c : ChainId} {g : Board} {x : Chain} :
    Triple (At c g x) (.op .abort) (At c g x) (fun _ => At c g x) := by
  rintro t ⟨hc, rfl, rfl⟩
  exact abortPoint_holds _ ⟨by simp [hc], by simp, by simp⟩ ⟨by simp [hc], by simp, by simp⟩

/-- The level of the line that was driven. -/
@[simp] theorem Chain.drive_lines (d : Nat) (f : LineFn) (b : Bool) (x : Chain) :
    (x.drive d f b).lines = withLevel x.lines f (levelOf b) := rfl

/-- A pulse (R80): to the negation of the rest level and back; on an error the chain is as one of its sets left it. -/
theorem pulse_at {c : ChainId} {g : Board} {x : Chain} (f : LineFn) (r : Bool) (m : Nat) (ho : levelAt x.lines f ≠ .z)
    (hs : f = .clk → x.lines.ser ≠ .z) :
    Triple (At c g x) (pulseLine ⟨c, f⟩ r m)
      (At c g ((x.drive (g.depth c) f (!r)).drive (g.depth c) f r))
      (fun _ t => (∃ u, At c g (x.drive (g.depth c) f u) t) ∨
        ∃ u, At c g ((x.drive (g.depth c) f (!r)).drive (g.depth c) f u) t) := by
  have hs' : f = .clk → (x.drive (g.depth c) f (!r)).lines.ser ≠ .z := by
    rintro rfl
    exact hs rfl
  have ho' : levelAt (x.drive (g.depth c) f (!r)).lines f ≠ .z := by simp
  have hset := set_at (c := c) (g := g) (x := x.drive (g.depth c) f (!r)) f r ho' hs'
  refine Triple.seq ((set_at f (!r) ho hs).conseq (fun _ h => h) (fun _ h => h) (fun _ _ h => Or.inl h)) ?_
  refine Triple.guarded (hold_at m) (fun t ht => (hset t ht).mono (fun _ h => h) (fun _ _ h => Or.inr h)) ?_
  exact fun _ t ht => (hset t ht).mono (fun _ h => Or.inr ⟨r, h⟩) (fun _ _ h => Or.inr h)

/-- The shift stages after bits are shifted in, first bit first (R37). -/
def shiftAll (d : Nat) (bits : List Bool) (sr : List Bool) : List Bool := bits.foldl (fun a b => (b :: a).take d) sr

@[simp] theorem shiftAll_nil (d : Nat) (sr : List Bool) : shiftAll d [] sr = sr := rfl

@[simp] theorem shiftAll_cons (d : Nat) (b : Bool) (bs sr : List Bool) :
    shiftAll d (b :: bs) sr = shiftAll d bs ((b :: sr).take d) := rfl

/-- Bits shifted in lie in front, the last one first (R104). -/
theorem shiftAll_eq (d : Nat) (bits sr : List Bool) (h : bits ≠ []) :
    shiftAll d bits sr = (bits.reverse ++ sr).take d := by
  have aux : ∀ (bits sr : List Bool), (shiftAll d bits sr).take d = (bits.reverse ++ sr).take d := by
    intro bits
    induction bits with
    | nil => intro sr; rfl
    | cons b bs ih =>
      intro sr
      rw [shiftAll_cons, ih]
      simp only [List.reverse_cons, List.append_assoc, List.take_append, List.take_take, List.singleton_append]
      congr 2
      omega
  cases bits with
  | nil => exact absurd rfl h
  | cons b bs =>
    rw [← aux]
    have hlen : ∀ (bs a : List Bool), a.length ≤ d → (shiftAll d bs a).length ≤ d := by
      intro bs
      induction bs with
      | nil => intro a ha; exact ha
      | cons c cs ih => intro a _; exact ih _ (by simp)
    rw [List.take_of_length_le]
    exact hlen bs _ (by simp)

/-- A field read most significant bit first lies in the stages least significant bit first (R46). -/
theorem seqOfField_reverse {n : Nat} (b : BitVec n) : (seqOfField b).reverse = stagesOfField b := by
  apply List.ext_getElem
  · simp [seqOfField, stagesOfField]
  · intro i h1 h2
    simp only [seqOfField, List.length_reverse, List.length_map, List.length_range] at h1
    simp only [seqOfField, stagesOfField, List.getElem_reverse, List.length_map, List.length_range, List.getElem_map,
      List.getElem_range, BitVec.getMsbD, show n - 1 - i < n by omega, decide_true, Bool.true_and]
    congr 1
    omega

/-- The shift stages after a whole field is shifted in (R103). -/
theorem shiftAll_field {n d : Nat} (b : BitVec n) (sr : List Bool) (hn : n ≠ 0) (hd : n ≤ d) :
    shiftAll d (seqOfField b) sr = stagesOfField b ++ sr.take (d - n) := by
  have hne : seqOfField b ≠ [] := fun h => hn (by simpa [seqOfField] using congrArg List.length h)
  rw [shiftAll_eq _ _ _ hne, seqOfField_reverse, List.take_append, List.take_of_length_le]
  · simp [stagesOfField]
  · simpa [stagesOfField] using hd

/-- The level of the serial-data line after bits were set on it (R107). -/
def serAfter (bits : List Bool) (ser : Level) : Level :=
  match bits.getLast? with
  | none => ser
  | some b => levelOf b

/-- The serial-data line is left at bit 0 of the field (R107). -/
theorem serAfter_field {n : Nat} (b : BitVec (n + 1)) (l : Level) :
    serAfter (seqOfField b) l = levelOf (b.getLsbD 0) := by
  have h : (seqOfField b).getLast? = some (b.getLsbD 0) := by
    rw [← List.head?_reverse, seqOfField_reverse]
    simp [stagesOfField, List.range_succ_eq_map]
  simp only [serAfter, h]

/-- A load of a chain at rest (R98): on success the bits are shifted in and latched; on an error the storage stages are as they were,
or hold the whole new content (R106). -/
theorem loadSeq_at {c : ChainId} {g : Board} (m : Nat) (o : Level) (st : List Bool) (bits : List Bool) :
    ∀ (ser : Level) (sr : List Bool) (n : Nat), ser ≠ .z →
    Triple (At c g { lines := ⟨ser, .lo, .lo, o⟩, sr := sr, st := st, redraws := n }) (loadSeq m c bits)
      (At c g { lines := ⟨serAfter bits ser, .lo, .lo, o⟩, sr := shiftAll (g.depth c) bits sr,
                st := shiftAll (g.depth c) bits sr, redraws := n + bits.length + 1 })
      (fun _ t => ∃ y, At c g y t ∧ (y.st = st ∨ y.st = shiftAll (g.depth c) bits sr)) := by
  induction bits with
  | nil =>
    intro ser sr n _
    refine (pulse_at .lat restLat m (by simp [levelAt]) (by simp)).conseq (fun _ h => h) (fun _ h => h) ?_
    rintro _ t (⟨u, h⟩ | ⟨u, h⟩)
    · refine ⟨_, h, ?_⟩
      cases u <;> simp [Chain.drive]
    · refine ⟨_, h, Or.inr ?_⟩
      cases u <;> simp [Chain.drive, restLat, withLevel]
  | cons b bs ih =>
    intro ser sr n hser
    have hb : levelOf b ≠ .z := levelOf_ne_z b
    have hmid : ∀ y : Chain, y.st = st → y.st = st ∨ y.st = shiftAll (g.depth c) (b :: bs) sr := fun _ h => Or.inl h
    simp only [loadSeq, block]
    refine Triple.seq ((set_at .ser b (by simpa [levelAt] using hser) (by simp)).conseq (fun _ h => h) (fun _ h => h) ?_) ?_
    · rintro _ t ⟨u, h⟩
      exact ⟨_, h, hmid _ (by simp [Chain.drive])⟩
    refine Triple.seq (abort_at.conseq (fun _ h => h) (fun _ h => h) ?_) ?_
    · intro _ t h
      exact ⟨_, h, hmid _ (by simp [Chain.drive])⟩
    refine Triple.seq ((pulse_at .clk restClk m (by simp [levelAt, Chain.drive, withLevel])
      (by simp [Chain.drive, withLevel])).conseq (fun _ h => h) (fun _ h => h) ?_) ?_
    · rintro _ t (⟨u, h⟩ | ⟨u, h⟩) <;> exact ⟨_, h, hmid _ (by simp [Chain.drive])⟩
    have hx : (((Chain.mk ⟨ser, .lo, .lo, o⟩ sr st n).drive (g.depth c) .ser b).drive (g.depth c) .clk (!restClk)).drive
        (g.depth c) .clk restClk = ⟨⟨levelOf b, .lo, .lo, o⟩, (b :: sr).take (g.depth c), st, n + 1⟩ := by
      cases b <;> simp [Chain.drive, restClk, withLevel, levelAt, bitOf]
    rw [hx]
    refine Triple.seq (abort_at.conseq (fun _ h => h) (fun _ h => h) ?_) ?_
    · intro _ t h
      exact ⟨_, h, Or.inl rfl⟩
    refine Triple.seq ((ih (levelOf b) _ _ hb).conseq (fun _ h => h) ?_ (fun _ _ h => h)) Triple.skip
    intro t h
    have hl : serAfter (b :: bs) ser = serAfter bs (levelOf b) := by
      cases bs with
      | nil => rfl
      | cons d ds =>
        unfold serAfter
        rw [List.getLast?_cons_cons]
        cases h' : (d :: ds).getLast? with
        | none => simp at h'
        | some e => rfl
    rw [hl, List.length_cons, show n + (bs.length + 1) + 1 = n + 1 + bs.length + 1 by omega]
    exact h

/-! ### The operations of the loader's pseudocode -/

theorem opsOf_pulseLine (l : Line) (r : Bool) (m : Nat) :
    opsOf (pulseLine l r m) = [.set l (!r), .hold m, .set l r] := rfl

theorem opsOf_block_nil : opsOf (block []) = [] := rfl

theorem opsOf_block_cons (p : Prog) (ps : List Prog) : opsOf (block (p :: ps)) = opsOf p ++ opsOf (block ps) := rfl

/-- The operations of a load (R98). -/
theorem opsOf_loadSeq (m : Nat) (c : ChainId) (bits : List Bool) :
    opsOf (loadSeq m c bits) =
      bits.flatMap (fun b =>
          [.set ⟨c, .ser⟩ b, .abort, .set ⟨c, .clk⟩ true, .hold m, .set ⟨c, .clk⟩ false, .abort]) ++
        [.set ⟨c, .lat⟩ true, .hold m, .set ⟨c, .lat⟩ false] := by
  induction bits with
  | nil => rfl
  | cons b bs ih =>
    rw [loadSeq]
    simp only [opsOf_block_cons, opsOf_block_nil, ih, opsOf_pulseLine, opsOf, List.flatMap_cons]
    simp [restClk]

/-- The operations of a load are plain, and of its chain's lines other than the enable line. -/
theorem mem_opsOf_loadSeq {m : Nat} {c : ChainId} {bits : List Bool} {o : Op} (h : o ∈ opsOf (loadSeq m c bits)) :
    o = .abort ∨ o = .hold m ∨ ∃ f v, f ≠ .oe ∧ o = .set ⟨c, f⟩ v := by
  rw [opsOf_loadSeq] at h
  simp only [List.mem_append, List.mem_flatMap, List.mem_cons, List.not_mem_nil, or_false] at h
  rcases h with ⟨b, -, rfl | rfl | rfl | rfl | rfl | rfl⟩ | rfl | rfl | rfl
  · exact Or.inr (Or.inr ⟨.ser, b, by simp, rfl⟩)
  · exact Or.inl rfl
  · exact Or.inr (Or.inr ⟨.clk, true, by simp, rfl⟩)
  · exact Or.inr (Or.inl rfl)
  · exact Or.inr (Or.inr ⟨.clk, false, by simp, rfl⟩)
  · exact Or.inl rfl
  · exact Or.inr (Or.inr ⟨.lat, true, by simp, rfl⟩)
  · exact Or.inr (Or.inl rfl)
  · exact Or.inr (Or.inr ⟨.lat, false, by simp, rfl⟩)

end Sys2Proof.Machine
end

