-- ==== Sys2Proof/Laws/Display.lean ====
section
/-! SUPPORT. What the display depends on. -/

namespace Sys2Proof.Machine

/-- What a chain shows depends on the chain and the board alone (R32, R40, R41). -/
theorem State.visible_congr {s t : State} {c : ChainId} (hc : t.chain c = s.chain c) (hb : t.cfg = s.cfg) :
    t.visible c = s.visible c := by
  simp only [State.visible, floatingVisible, hc, hb]

/-- An undriven redraw draws anew what its chain shows while its enable line is undriven (R41). -/
theorem undrivenHavoc_redraws (c : ChainId) (s : State) :
    ((undrivenHavoc c s).chain c).redraws = (s.chain c).redraws + 1 := by
  cases c <;> rfl

/-- So does a shift (R37, R41). -/
theorem shift_redraws (c : ChainId) (s : State) : ((shift c s).chain c).redraws = (s.chain c).redraws + 1 := by
  have h : ∀ b, ((shiftIn c b s).chain c).redraws = (s.chain c).redraws + 1 := fun b => by simp [shiftIn]
  unfold shift
  split
  · exact h _
  · exact h _
  · cases c <;> exact h _

/-- So does a latch (R38, R41). -/
theorem latch_redraws (c : ChainId) (s : State) : ((latch c s).chain c).redraws = (s.chain c).redraws + 1 := by
  simp [latch]

end Sys2Proof.Machine
end

