-- ==== Sys2Proof/Laws/PerInstr.lean ====
section
/-! SUPPORT. A family of statements about every command: its word lies in its own row of the opcode table. -/

namespace Sys2Proof.Laws.TableRow

/-- The `mask` of a command's row in spec/opcode_table.json: the bits the row fixes. -/
def mask : Instr → Word
  | .init _ _ => 0xFFFFFFFC
  | .shutdown _ _ => 0xFFFFFFFC
  | .setLeds _ => 0xFFFFFFC0
  | .setDigits _ => 0xFF000000
  | .loadLed _ => 0xFFFFFFC0
  | .loadDig _ => 0xFF000000
  | .enable _ => 0xFEFFFFFF
  | .disable _ => 0xFEFFFFFF
  | .pulse _ _ _ => 0xFF0000E8
  | .encodeDigit _ => 0xFFFFFFF0

/-- The `match` of a command's row in spec/opcode_table.json: the values of those bits. -/
def pattern : Instr → Word
  | .init _ _ => 0x10000000
  | .shutdown _ _ => 0x20000000
  | .setLeds _ => 0x30000000
  | .setDigits _ => 0x40000000
  | .loadLed _ => 0x50000000
  | .loadDig _ => 0x51000000
  | .enable _ => 0x60000000
  | .disable _ => 0x70000000
  | .pulse _ _ _ => 0x80000000
  | .encodeDigit _ => 0x90000000

/-- The word of a command has the opcode of its row and no reserved bit (R59, R71, R72). -/
def Statement (i : Instr) : Prop := encode i &&& mask i = pattern i

theorem init (cl cd : Bool) : Statement (.init cl cd) := by
  unfold Statement; revert cl cd; decide

theorem shutdown (cl cd : Bool) : Statement (.shutdown cl cd) := by
  unfold Statement; revert cl cd; decide

theorem setLeds (l : BitVec 6) : Statement (.setLeds l) := by
  unfold Statement; revert l; decide +kernel

theorem setDigits (g : BitVec 24) : Statement (.setDigits g) := by
  apply BitVec.eq_of_getLsbD_eq
  intro k hk
  interval_cases k <;> simp [encode, putAt, mask, pattern]

theorem loadLed (b : BitVec 6) : Statement (.loadLed b) := by
  unfold Statement; revert b; decide +kernel

theorem loadDig (b : BitVec 24) : Statement (.loadDig b) := by
  apply BitVec.eq_of_getLsbD_eq
  intro k hk
  interval_cases k <;> simp [encode, putAt, mask, pattern, bitOfChain]

theorem enable (c : ChainId) : Statement (.enable c) := by
  unfold Statement; cases c <;> decide

theorem disable (c : ChainId) : Statement (.disable c) := by
  unfold Statement; cases c <;> decide

theorem pulse (line : Line) (rest : Bool) (width : BitVec 16) : Statement (.pulse line rest width) := by
  apply BitVec.eq_of_getLsbD_eq
  intro k hk
  interval_cases k <;> simp [encode, putAt, mask, pattern]

theorem encodeDigit (v : BitVec 4) : Statement (.encodeDigit v) := by
  unfold Statement; revert v; decide

end Sys2Proof.Laws.TableRow
end

