-- ==== Sys2Proof/Laws/Sequencer.lean ====
section
/-! SUPPORT. The two readings of a command, whole and step by step, share one start and one pseudocode. -/

namespace Sys2Proof.Machine

/-- Every meaning is the run of the command's plan. -/
theorem exec_eq_runPlan (i : Instr) (s : State) : exec i s = .next (runPlan (planOf i s) s) := by
  cases i <;> rfl

/-- A plan that goes on has the pseudocode of its command, and leaves the board and the lines. -/
theorem planOf_go {i : Instr} {s t : State} {p : Prog} (h : planOf i s = .go t p) :
    p = progOf s.cfg i ∧ t = { s with result := t.result } := by
  cases i with
  | init cl cd => simp only [planOf, planInit, Plan.go.injEq] at h; obtain ⟨rfl, rfl⟩ := h; exact ⟨rfl, rfl⟩
  | encodeDigit v =>
    simp only [planOf, planEncodeDigit] at h
    split at h
    · cases h
    · simp only [Plan.go.injEq] at h; obtain ⟨rfl, rfl⟩ := h; exact ⟨rfl, rfl⟩
  | setDigits g =>
    simp only [planOf, planSetDigits, ifConfigured] at h
    split at h
    · split at h
      · cases h
      · rename_i bits hb
        simp only [Plan.go.injEq] at h
        obtain ⟨rfl, rfl⟩ := h
        exact ⟨by simp [progOf, hb], rfl⟩
    · cases h
  | _ =>
    simp only [planOf, planShutdown, planSetLeds, planLoad, planEnable, planDisable, planPulse, ifConfigured] at h
    split at h
    · simp only [Plan.go.injEq] at h; obtain ⟨rfl, rfl⟩ := h; exact ⟨rfl, rfl⟩
    · cases h

/-- A step list has as many steps as its pseudocode. -/
@[simp] theorem stepList_length (p : Prog) (base : Nat) (outer : Option Nat) :
    (stepList p base outer).length = stepCount p := by
  induction p generalizing base outer with
  | skip => rfl
  | op o => rfl
  | seq a b iha ihb => simp [stepList, stepCount, iha, ihb]
  | guarded a b iha => simp [stepList, stepCount, iha]

/-- Where the board is well-formed, a step is the host's next action. -/
theorem step_eq (s : State) (h : s.cfg.wellFormed = true) : step s = hostAction s.nextAction.1 s.nextAction.2 := by
  simp [step, machineStep, h]

end Sys2Proof.Machine
end

