-- ==== Sys2Proof/Tests/Slice0.lean ====
section
/-! SUPPORT. Tests: expected values from spec/30_encoding.md and spec/95_test_vectors.md (each named in its test), and, for every
statement with hypotheses, a state that meets them. -/

open Sys2Proof Sys2Proof.Machine

namespace Sys2Proof.Tests

/-! ### The states of the tests -/

/-- The stages that hold a number, of the width given. -/
def bits (n v : Nat) : List Bool := stagesOfField (BitVec.ofNat n v)

/-- A board with enable level `a` and `6 + extra` LED stages. -/
def boardOf (a : Bool) (extra : Nat) : Board :=
  { oeActive := a, ledExtra := extra, tPulse := 100, pins := #v[0, 1, 2, 3, 4, 5, 6, 7] }

/-- The conventions of 95_test_vectors.md: configured, no failure, no interrupt. -/
def start (a : Bool) (extra : Nat) (led dig : Chain) : State :=
  { (State.powerUp (boardOf a extra)).hushed with configured := true, led := led, dig := dig }

/-- A chain with clock and latch at rest, from its serial-data level, its enable level and its two registers. -/
def restChain (ser oe : Level) (sr st : List Bool) : Chain := { lines := ⟨ser, .lo, .lo, oe⟩, sr := sr, st := st, redraws := 0 }

/-- Both chains enabled and at rest. -/
def ready : State := start true 0 (restChain .hi .hi (bits 6 0) (bits 6 0x35)) (restChain .lo .hi (bits 24 1) (bits 24 0))

/-- Power-up on a known board, with no failure and no interrupt. -/
def fresh : State := (State.powerUp (boardOf true 0)).hushed

/-- The state with one action of the host to come. -/
def withHost (e : HostEvent) (s : State) : State := { s with host := [e] }

/-- Whether one step, of the command `w`, ends in a next state with a property. -/
def stepGives (w : Word) (s : State) (p : State → Bool) : Bool :=
  match step (withHost (.command w) s) with
  | .next t => p t
  | .fault _ => false
  | .refused _ => false

/-- The draw of a collaborator that fails, at a level. -/
def failAt (level : Bool) : GpioDraw := { ok := false, level := level, led := undrivenLines, dig := undrivenLines }

/-- The draw of a collaborator that succeeds. -/
def succeed : GpioDraw := { ok := true, level := false, led := undrivenLines, dig := undrivenLines }

/-! ### Well-formedness: an ill-formed term for each check -/

/-- R25: two lines on one pin. -/
theorem test_wf_pins : ({ boardOf true 0 with pins := #v[0, 1, 2, 3, 4, 5, 6, 0] } : Board).wellFormed = false := by decide

theorem test_wf_pins_ok : (boardOf true 0).wellFormed = true := by decide

/-- R76: an LED argument of another type. -/
theorem test_wf_led : (Call.setLeds #v[none, none, some .other, none, none, none]).wellFormed = false := by decide

/-- R76: a digit argument of another type. -/
theorem test_wf_digit : (Call.setDigits #v[some .off, some .other, none, none, none, none]).wellFormed = false := by decide

theorem test_wf_encode : (Call.encodeDigit .other).wellFormed = false := by decide

/-- R100: a load of another length. -/
theorem test_wf_load : (Call.load .led [true, false, true, false, true]).wellFormed = false := by decide

/-- R76: a width above 65535. -/
theorem test_wf_width : (Call.pulse ⟨.led, .clk⟩ false (some 65536)).wellFormed = false := by decide

theorem test_wf_width_ok : (Call.pulse ⟨.led, .clk⟩ false (some 65535)).wellFormed = true := by decide

/-! ### Decoding: words written out from R61 to R67 and 95_test_vectors.md 2.1 -/

theorem test_decode_f : decode 0x20000003 = .ok (.shutdown true true) ∧ decode 0x10000001 = .ok (.init true false) := by
  decide

theorem test_decode_l : decode 0x3000003F = .ok (.setLeds 0x3F#6) := by decide

theorem test_decode_g : decode 0x40FFFFFA = .ok (.setDigits 0xFFFFFA#24) := by decide

theorem test_decode_b : decode 0x50000035 = .ok (.loadLed 0x35#6) ∧ decode 0x51000040 = .ok (.loadDig 0x40#24) := by decide

theorem test_decode_c : decode 0x61000000 = .ok (.enable .dig) ∧ decode 0x70000000 = .ok (.disable .led) := by decide

theorem test_decode_p :
    decode 0x80000000 = .ok (.pulse ⟨.led, .ser⟩ false 0#16) ∧ decode 0x80FFFF17 = .ok (.pulse ⟨.dig, .oe⟩ true 65535#16) := by
  decide

theorem test_decode_e : decode 0x9000000C = .ok (.encodeDigit 0xC#4) := by decide

/-- The illegal words of 95_test_vectors.md 2.1. -/
theorem test_decode_illegal :
    decode 0xF0000000 = .error .opcode ∧ decode 0xFFFFFFFF = .error .opcode ∧ decode 0x18000003 = .error .reservedBits ∧
      decode 0x30000040 = .error .reservedBits ∧ decode 0x41000000 = .error .reservedBits ∧
      decode 0x50000040 = .error .reservedBits ∧ decode 0x52000000 = .error .reservedBits ∧
      decode 0x60000001 = .error .reservedBits ∧ decode 0x80000008 = .error .reservedBits ∧
      decode 0x80000020 = .error .reservedBits ∧ decode 0x81000000 = .error .reservedBits ∧
      decode 0x90000010 = .error .reservedBits := by
  decide

/-- The syntax of R74: `PULSE CLK_DIG, 1, 258` is 0x80000000 + (258 << 8) + (1 << 4) + 5. -/
theorem test_encode_p : encode (.pulse ⟨.dig, .clk⟩ true 258#16) = 0x80010215 := by decide

/-- A word placed right after reset is the next thing the machine runs. -/
theorem test_fetch :
    (match step (State.reset.withFetchWord 32 0x90000007) with
      | .next t => t.result == 7 && t.status == 0
      | .fault _ => false
      | .refused _ => false) = true := by
  decide

/-! ### One step of each command, from 95_test_vectors.md -/

/-- I-1: both chains cleared and enabled, from reset. -/
theorem test_init :
    stepGives 0x10000003 fresh (fun t =>
      t.status == 0x01 && t.led.st == bits 6 0 && t.dig.st == bits 24 0xFFFFFF && t.line ⟨.dig, .ser⟩ == .hi &&
        t.visible .led == .shows (bits 6 0)) = true := by
  decide +kernel

/-- I-4: the configure fails. -/
theorem test_init_fails :
    stepGives 0x10000003 { fresh with gpio := { listed := [failAt true], rest := some succeed } }
      (fun t => t.status == 0x20 && t.line ⟨.led, .clk⟩ == .z) = true := by
  decide +kernel

/-- S-2: only the release. -/
theorem test_shutdown : stepGives 0x20000000 ready (fun t => t.status == 0x00 && t.line ⟨.dig, .oe⟩ == .z) = true := by
  decide +kernel

/-- R137: an interrupted body still releases. -/
theorem test_shutdown_interrupted :
    stepGives 0x20000003 { ready with irq := { listed := [false, true], rest := some false } }
      (fun t => t.status == 0x30 && t.line ⟨.led, .oe⟩ == .z) = true := by
  decide +kernel

/-- E4: the bit order of the LEDs. -/
theorem test_set_leds :
    stepGives 0x30000035 ready (fun t =>
      t.led.st == [true, false, true, false, true, true] && t.ledLit 1 && !t.ledLit 2 && t.ledLit 6) = true := by
  decide +kernel

/-- E8: the tubes show `4 _ 9 _ 1 7`. -/
theorem test_set_digits :
    stepGives 0x4071F9F4 ready (fun t =>
      t.dig.st == bits 24 0x71F9F4 && [1, 2, 3, 4, 5, 6].map t.tube ==
        [.numeral 4, .blank, .numeral 9, .blank, .numeral 1, .numeral 7]) = true := by
  decide +kernel

/-- 95_test_vectors.md 2.8: one digit out of range, nothing touched. -/
theorem test_set_digits_range :
    stepGives 0x40A54321 ready (fun t => t.status == 0x11 && t.dig == ready.dig && t.draws == ready.draws) = true := by
  decide +kernel

/-- L-5: the stages beyond the sixth hold the old stages 1 and 2. -/
theorem test_load_led :
    stepGives 0x50000007 (start true 2 (restChain .lo .lo (bits 8 0xB3) (bits 8 0)) ready.dig)
      (fun t => t.led.sr == bits 8 0xC7 && t.led.st == bits 8 0xC7 && t.line ⟨.led, .ser⟩ == .hi) = true := by
  decide +kernel

/-- L-6: an interrupt after the third clock pulse leaves the old frame. -/
theorem test_load_led_interrupted :
    stepGives 0x50000000
      { ready with irq := { listed := [false, false, false, false, false, false, false, false, false, true], rest := some false } }
      (fun t => t.status == 0x31 && t.led.st == bits 6 0x35) = true := by
  decide +kernel

/-- L-9: the clock left high loses the first bit. -/
theorem test_load_dig_clock_high :
    stepGives 0x51800001 (start true 0 ready.led { lines := ⟨.lo, .hi, .lo, .lo⟩, sr := bits 24 0, st := bits 24 0, redraws := 0 })
      (fun t => t.dig.sr == bits 24 1 && t.dig.st == bits 24 1 && t.line ⟨.dig, .clk⟩ == .lo) = true := by
  decide +kernel

/-- L-7: a latch set that fails at 1 has latched. -/
theorem test_load_dig_latch_fails :
    stepGives 0x51123456
      { ready with gpio := { listed := List.replicate 72 succeed ++ [failAt true], rest := some succeed } }
      (fun t => t.dig.st == bits 24 0x123456 && t.line ⟨.dig, .lat⟩ == .hi && t.status == 0x21) = true := by
  decide +kernel

/-- O-1: the enable line is active low here. -/
theorem test_enable :
    stepGives 0x60000000 (start false 0 (restChain .lo .hi (bits 6 0) (bits 6 0x35)) ready.dig)
      (fun t => t.line ⟨.led, .oe⟩ == .lo && t.visible .led == .shows (bits 6 0x35)) = true := by
  decide +kernel

/-- O-6: not configured. -/
theorem test_enable_unconfigured :
    stepGives 0x61000000 fresh (fun t => t.faults == [.unconfigured] && t.status == 0x02 && t.seq == .idle) = true := by
  decide +kernel

/-- O-4: the enable line is active high here. -/
theorem test_disable :
    stepGives 0x71000000 ready (fun t => t.line ⟨.dig, .oe⟩ == .lo && t.visible .dig == .off) = true := by
  decide +kernel

/-- P-3: with rest level 1 the shift comes at the restore. -/
theorem test_pulse_rest_one :
    stepGives 0x80000015 ready (fun t => t.dig.sr == bits 24 2 && t.line ⟨.dig, .clk⟩ == .hi) = true := by
  decide +kernel

/-- P-10: the restore's failure replaces the interrupt. -/
theorem test_pulse_restore_fails :
    stepGives 0x80000001
      { ready with
        irq := { listed := [false, true], rest := some false }
        gpio := { listed := [succeed, failAt true], rest := some succeed } }
      (fun t => t.status == 0x21 && t.line ⟨.led, .clk⟩ == .hi && t.led.sr == bits 6 1) = true := by
  decide +kernel

/-- 95_test_vectors.md 2.2: RESULT is unchanged by a field out of range. -/
theorem test_encode_digit_range :
    stepGives 0x9000000A { fresh with result := 0xF } (fun t => t.result == 0xF && t.status == 0x10) = true := by
  decide +kernel

/-! ### What meets the hypotheses of the statements -/

/-- LegalWordsAreTheirCommandsWords. -/
theorem test_meets_legal_word : decode 0x5100FF00 = .ok (.loadDig 0xFF00#24) := by decide

/-- EveryWordIsOneTableRowOrIllegal: a word for each clause, next to its boundary. -/
theorem test_meets_table_rows :
    (opcodeRows.filter (fun r => 0x9000000F#32 &&& r.2 == r.1)).length = 1 ∧ decode 0x0FFFFFFF = .error .opcode ∧
      decode 0xA0000000 = .error .opcode ∧ decode 0x98000000 = .error .reservedBits := by
  decide

/-- StepRunsTheDecodedCommand. -/
theorem test_meets_step :
    (withHost (.command 0x3000003F) ready).cfg.wellFormed = true ∧ (withHost (.command 0x3000003F) ready).faults = [] ∧
      (withHost (.command 0x3000003F) ready).busy = false ∧ (withHost (.command 0x3000003F) ready).seq = .idle ∧
      (withHost (.command 0x3000003F) ready).host = .command 0x3000003F :: [] ∧ decode 0x3000003F = .ok (.setLeds 0x3F#6) := by
  decide

/-- IllegalWordChangesOnlyErr. -/
theorem test_meets_illegal :
    (withHost (.command 0xA0000000) fresh).cfg.wellFormed = true ∧ (withHost (.command 0xA0000000) fresh).faults = [] ∧
      (withHost (.command 0xA0000000) fresh).busy = false ∧ (withHost (.command 0xA0000000) fresh).seq = .idle ∧
      (withHost (.command 0xA0000000) fresh).host = .command 0xA0000000 :: [] ∧ decode 0xA0000000 = .error .opcode := by
  decide

/-- StepByStepRunEndsAsExec: two ticks after the decode end this command. -/
theorem test_meets_step_by_step :
    ready.seq = .idle ∧
      (Nat.iterate tick 3 { ready with busy := true, seq := .running 0x71000000 0 none }).trace =
        [.abortPoint false, .set ⟨.dig, .oe⟩ false true, .ended none] := by
  decide +kernel

/-- HostReadsAnswerTheRegisters: each clause, the last at its boundary. -/
theorem test_meets_reads :
    ready.cfg.wellFormed = true ∧ (withHost (.read 3) ready).host = .read 3 :: [] ∧ ready.readReg 0 = some 0 ∧
      ready.readReg 1 = some 0x01 ∧ ready.readReg 2 = some 0 ∧ ready.readReg 3 = none := by
  decide

/-- HostWritesReachOnlyCmd: idle and busy. -/
theorem test_meets_writes :
    ready.cfg.wellFormed = true ∧ ready.faults = [] ∧ (withHost (.write 0 7) ready).host = .write 0 7 :: [] ∧
      ready.busy = false ∧ ready.seq = .idle ∧ (ready.issue 7).busy = true ∧ (ready.issue 7).seq ≠ .idle ∧ (withHost (.write 3 7) ready).host = .write 3 7 :: [] := by
  decide

/-- EveryStepKeepsTheInvariant, BoardFaultsAndRefusalsStay. -/
theorem test_meets_invariant :
    (withHost (.command 0x71000000) ready).stagesFit = true ∧ linesDriven ready.led.lines = true ∧
      linesDriven ready.dig.lines = true ∧ ready.result.toNat < 16 ∧ ready.faults.Nodup ∧ ready.refused.Nodup ∧
      ready.seqLegal = true ∧ ready.busyFits = true ∧ stepGives 0x71000000 ready (fun _ => true) = true := by
  decide +kernel

/-- OnlyTheNamedCommandsWriteRegisters, CommandsTouchOnlyTheirLines, CommandsLeaveTheOtherChain: a command each clause is about. -/
theorem test_meets_frames :
    stepGives 0x71000000 ready (fun _ => true) = true ∧ writesLine (.disable .dig) ⟨.led, .oe⟩ = false ∧
      (∀ f, writesLine (.disable .dig) ⟨.led, f⟩ = false) ∧ writesLine (.loadLed 0#6) ⟨.led, .oe⟩ = false ∧
      writesLine (.pulse ⟨.led, .clk⟩ true 1#16) ⟨.led, .lat⟩ = false ∧ writesLine (.encodeDigit 3#4) ⟨.dig, .ser⟩ = false := by
  refine ⟨by decide +kernel, by decide, fun f => by cases f <;> decide, by decide, by decide, by decide⟩

/-- EveryCommandEndsOrFaultsUnconfigured: both clauses. -/
theorem test_meets_ends :
    needsLines (.shutdown true true) = true ∧ fresh.configured = false ∧ needsLines (.init true true) = false ∧
      ready.configured = true := by
  decide

/-- ResetInputGivesTheResetState, in the middle of a command. -/
theorem test_meets_reset_input :
    (withHost .reset (ready.issue 0x3000003F)).cfg.wellFormed = true ∧
      (withHost .reset (ready.issue 0x3000003F)).host = .reset :: [] := by
  decide

/-- FaultedMachineTakesNoStep: each way the controller would have to act. -/
theorem test_meets_faulted :
    (fresh.recordFault .unconfigured).cfg.wellFormed = true ∧ (fresh.recordFault .unconfigured).faults ≠ [] ∧
      (fresh.recordFault .unconfigured).host = [] ∧
      (withHost .tick (fresh.recordFault .unconfigured)).host = .tick :: [] ∧
      (withHost (.command 3) (fresh.recordFault .unconfigured)).host = .command 3 :: [] ∧
      (withHost (.call (.enable .led)) (fresh.recordFault .unconfigured)).host = .call (.enable .led) :: [] ∧
      (withHost (.write 0 3) (fresh.recordFault .unconfigured)).host = .write 0 3 :: [] := by
  decide

/-- PinConflictIsRefused: before and after the mark is set. -/
theorem test_meets_pin_conflict :
    (∃ a b : Fin 8, a ≠ b ∧ (#v[0, 1, 2, 3, 4, 5, 6, 0] : Vector Nat 8)[a] = (#v[0, 1, 2, 3, 4, 5, 6, 0] : Vector Nat 8)[b]) ∧
      RefusedInput.pinMap ∉ fresh.refused ∧ RefusedInput.pinMap ∈ (fresh.refuse .pinMap).refused := by
  exact ⟨⟨0, 7, by decide, by decide⟩, by decide, by decide⟩

/-- OnlyRisingEdgesMoveTheStages: a shift, a latch, and neither. -/
theorem test_meets_edges :
    linesDriven ready.led.lines = true ∧ ready.line ⟨.led, .clk⟩ = .lo ∧ ready.line ⟨.led, .lat⟩ = .lo ∧
      ready.line ⟨.led, .ser⟩ = .hi := by
  decide

/-- UndrivenChangesRedrawTheStages: from undriven, and to undriven. -/
theorem test_meets_undriven : fresh.line ⟨.dig, .clk⟩ = .z ∧ ready.line ⟨.dig, .clk⟩ ≠ .z := by decide

/-- PulseCompletes, PulseMakesAtMostOneActiveEdge: a line at rest, and the same line left high, where a pulse with rest level 0
makes no rising edge. -/
theorem test_meets_pulse :
    ready.configured = true ∧ ready.quiet = true ∧ linesDriven ready.led.lines = true ∧ ready.line ⟨.led, .clk⟩ = .lo ∧
      (ready.setLine ⟨.led, .clk⟩ .hi).quiet = true ∧ (ready.setLine ⟨.led, .clk⟩ .hi).line ⟨.led, .clk⟩ = .hi ∧
      linesDriven (ready.setLine ⟨.led, .clk⟩ .hi).led.lines = true := by
  decide

/-- PulseAlwaysRestoresAfterItsHold: an interrupt before the line is touched, and a first set that fails; test_pulse_restore_fails
is the third way. -/
theorem test_meets_pulse_ways :
    stepGives 0x80000001 { ready with irq := { listed := [true], rest := some false } }
        (fun t => t.status == 0x31 && t.led == ready.led) = true ∧
      stepGives 0x80000001 { ready with gpio := { listed := [failAt true], rest := some succeed } }
        (fun t => t.status == 0x21 && t.led.sr == bits 6 1) = true := by
  decide +kernel

/-- EncodeDigitWritesResultOrErr, FieldEncoderIsTheEncoder: both sides of each boundary. -/
theorem test_meets_encode :
    encF 0x9#4 = some 0x9#4 ∧ encF 0xA#4 = none ∧ encF 0xE#4 = none ∧ encF 0xF#4 = some 0xF#4 := by
  decide

/-- EncoderProducesOnlyItsCodes, EncoderGivesTheBinaryCode: both sides of each boundary. -/
theorem test_meets_encoder :
    enc (.int 9) = some [true, false, false, true] ∧ enc (.int 0) = some [false, false, false, false] ∧ enc (.int 10) = none ∧
      enc (.int (-1)) = none ∧ enc (.int 15) = none := by
  decide

/-- The statements about loads: both chains ready, and each with its clock or its latch left high. -/
theorem test_meets_loads :
    ready.configured = true ∧ ready.quiet = true ∧ ready.led.atRest = true ∧ ready.dig.atRest = true ∧
      (∀ c, ((ready.setLine ⟨c, .clk⟩ .hi).chain c).lines.clk = .hi ∧ ((ready.setLine ⟨c, .clk⟩ .hi).chain c).lines.lat = .lo ∧
        ((ready.setLine ⟨c, .clk⟩ .hi).chain c).lines.ser ≠ .z ∧ (ready.setLine ⟨c, .clk⟩ .hi).quiet = true) ∧
      ∀ c, ((ready.setLine ⟨c, .lat⟩ .hi).chain c).lines.lat = .hi ∧ ((ready.setLine ⟨c, .lat⟩ .hi).chain c).lines.clk ≠ .z ∧
        (ready.setLine ⟨c, .lat⟩ .hi).quiet = true := by
  refine ⟨by decide, by decide, by decide, by decide, fun c => by cases c <;> decide, fun c => by cases c <;> decide⟩

/-- EnableShowsTheLatchedContent, DisableBlanksTheChain, BlankingKeepsTheContent. -/
theorem test_meets_output :
    ready.configured = true ∧ ready.quiet = true ∧ ready.line ⟨.led, .oe⟩ ≠ .z ∧
      ready.line ⟨.led, .oe⟩ = levelOf ready.cfg.oeActive := by
  decide

/-- InitializeEndState: a board of each polarity, and a clock or a latch left at 1 (log 25). -/
theorem test_meets_init :
    (ready.setLine ⟨.led, .clk⟩ .hi).quiet = true ∧ (ready.setLine ⟨.dig, .lat⟩ .hi).quiet = true ∧
      fresh.quiet = true ∧ fresh.cfg.oeActive = true ∧ (State.powerUp (boardOf false 2)).hushed.quiet = true ∧
      (State.powerUp (boardOf false 2)).hushed.cfg.oeActive = false := by
  decide

/-- SetLedsLightsItsLeds. -/
theorem test_meets_set_leds :
    ready.configured = true ∧ ready.quiet = true ∧ ready.led.atRest = true ∧ ready.led.lines.oe ≠ .z ∧
      ready.led.lines.oe = levelOf ready.cfg.oeActive := by
  decide

/-- SetDigitsIsTheDigitLoad, SetDigitsRejectsBeforeAnyLine, SetDigitsShowsItsDigits: digits at each boundary. -/
theorem test_meets_set_digits :
    allDigitsValid 0x90F9F0#24 ∧ ¬allDigitsValid 0x90A9F0#24 ∧ ¬allDigitsValid 0xE0F9F0#24 ∧ ready.dig.atRest = true ∧
      ready.dig.lines.oe = levelOf ready.cfg.oeActive ∧ digitField 0x90F9F0#24 4 = 0xF#4 ∧
      (digitField 0x90F9F0#24 6).toNat = (9 : Fin 10).val := by
  refine ⟨fun k h1 h2 => by interval_cases k <;> decide, fun h => absurd (h 4 (by decide) (by decide)) (by decide),
    fun h => absurd (h 6 (by decide) (by decide)) (by decide), by decide, by decide, by decide, by decide⟩

/-- ShutdownAlwaysReleases, ShutdownBlanksClearsReleases. -/
theorem test_meets_shutdown : ready.configured = true ∧ ready.quiet = true := by decide

/-- OnlyWellFormedCallsHaveWords, LoadCallKeepsItsBits: each clause. -/
theorem test_meets_calls :
    (Call.pulse ⟨.dig, .clk⟩ false none).wellFormed = true ∧ (Call.encodeDigit .other).wellFormed = false ∧
      (Call.load .dig [true]).wellFormed = false ∧ (bits 6 5).length = 6 ∧ (bits 24 5).length = 24 := by
  decide

/-- CallsRunAsTheirWords: a call with a word, and one without. -/
theorem test_meets_calls_run :
    (withHost (.call (.encodeDigit (.int (-1)))) ready).cfg.wellFormed = true ∧
      (withHost (.call (.encodeDigit (.int (-1)))) ready).faults = [] ∧
      (withHost (.call (.encodeDigit (.int (-1)))) ready).busy = false ∧
      (withHost (.call (.encodeDigit (.int (-1)))) ready).seq = .idle ∧
      (withHost (.call (.encodeDigit (.int (-1)))) ready).host = .call (.encodeDigit (.int (-1))) :: [] ∧
      callWord (.encodeDigit (.int (-1))) = .ok 0x9000000A ∧ callWord (.encodeDigit .other) = .error .callForm := by
  decide

/-- StatusHasItsLayout: a running command, an idle controller, and one that a fault stopped. -/
theorem test_meets_status :
    (ready.issue 0x71000000).Inv ∧ (ready.issue 0x71000000).seq ≠ .idle ∧ ready.Inv ∧ ready.faults = [] ∧
      ((fresh.issue 0x71000000).recordFault .unconfigured).Inv ∧
      ((fresh.issue 0x71000000).recordFault .unconfigured).busy = true := by
  unfold State.Inv
  decide

/-- CallFormsHaveTheirWords: the widths at both ends, a position that differs from its mirror image, and each side of 14. -/
theorem test_meets_call_forms :
    callWord (.pulse ⟨.dig, .clk⟩ true (some 65535)) = .ok 0x80FFFF15 ∧
      callWord (.pulse ⟨.led, .oe⟩ true (some 1)) = .ok 0x80000113 ∧
      callWord (.setLeds #v[some (.bool true), none, none, none, none, none]) = .ok 0x30000001 ∧
      callWord (.setDigits #v[some (.int 4), none, some (.int 9), some .off, some (.int 14), some (.int 15)]) =
        .ok 0x40AEF9F4 := by
  decide

/-- ShownContentStaysBetweenLineEvents: an undriven enable line, an abort point of each kind, and a command that writes no line of
the chain. -/
theorem test_meets_shown :
    fresh.line ⟨.led, .oe⟩ = .z ∧ abortPoint fresh = .done (fresh.afterIrq.emit (.abortPoint false)) ∧
      hold 5 fresh = .done (fresh.afterIrq.emit (.hold 5 false)) ∧
      (∀ f, writesLine (.encodeDigit 3#4) ⟨.led, f⟩ = false) ∧
      stepGives 0x90000003 fresh (fun t => t.led.redraws == fresh.led.redraws) = true := by
  refine ⟨by decide, rfl, rfl, fun f => rfl, by decide⟩

end Sys2Proof.Tests
end

section
/-! PROOF. Fields of a word: what is at a place, and what a table row says about its places (R12, R72). -/

namespace Sys2Proof.Machine

@[simp] theorem getLsbD_fieldAt (w : Word) (lo n i : Nat) :
    (fieldAt w lo n).getLsbD i = (decide (i < n) && w.getLsbD (lo + i)) :=
  BitVec.getLsbD_extractLsb' ..

@[simp] theorem getLsbD_putAt (lo : Nat) {n : Nat} (x : BitVec n) (i : Nat) :
    (putAt lo x).getLsbD i = (decide (i < 32) && decide (lo ≤ i) && x.getLsbD (i - lo)) := by
  simp only [putAt, BitVec.getLsbD_shiftLeft, BitVec.getLsbD_setWidth]
  grind

/-- A one-bit field is its bit. -/
theorem fieldAt_one (w : Word) (i : Nat) : fieldAt w i 1 = BitVec.ofBool (w.getLsbD i) :=
  BitVec.eq_of_getLsbD_eq fun j hj => by
    obtain rfl : j = 0 := by omega
    rw [getLsbD_fieldAt, BitVec.getLsbD_ofBool]
    simp

/-- A place that a table row fixes: the field `[lo+n-1 : lo]` and its value there. -/
structure FixedField where
  lo : Nat
  n : Nat
  value : BitVec n

/-- The word has the field's value at the field's place. -/
def FixedField.holds (w : Word) (f : FixedField) : Bool := fieldAt w f.lo f.n == f.value

/-- The mask that covers the field's place. -/
def FixedField.mask (f : FixedField) : Word := putAt f.lo (BitVec.allOnes f.n)

/-- The row, match and mask, that fixes the given fields. -/
def rowOf : List FixedField → Word × Word
  | [] => (0, 0)
  | f :: fs => (putAt f.lo f.value ||| (rowOf fs).1, f.mask ||| (rowOf fs).2)

/-- The fields lie in the word, each clear of those after it. -/
def fitTogether : List FixedField → Bool
  | [] => true
  | f :: fs => decide (f.lo + f.n ≤ 32) && (f.mask &&& (rowOf fs).2 == 0) && fitTogether fs

/-- The word is of the row: its bits under the mask are the match. -/
def matchesRow (w : Word) (r : Word × Word) : Bool := w &&& r.2 == r.1

theorem putAt_and_mask (f : FixedField) : putAt f.lo f.value &&& f.mask = putAt f.lo f.value :=
  BitVec.eq_of_getLsbD_eq fun i hi => by
    have : f.value.getLsbD (i - f.lo) = true → i - f.lo < f.n := BitVec.lt_of_getLsbD
    simp only [FixedField.mask, BitVec.getLsbD_and, getLsbD_putAt, BitVec.getLsbD_allOnes]
    grind

theorem rowOf_match_and_mask (fs : List FixedField) : (rowOf fs).1 &&& (rowOf fs).2 = (rowOf fs).1 := by
  induction fs with
  | nil => rfl
  | cons f fs ih =>
    have hf := putAt_and_mask f
    simp only [rowOf, BitVec.eq_of_getLsbD_eq_iff, BitVec.getLsbD_and, BitVec.getLsbD_or] at *
    grind

/-- Under one field's mask a word is the field's value there exactly if the field holds. -/
theorem and_mask_eq_iff {f : FixedField} (hf : f.lo + f.n ≤ 32) (w : Word) :
    w &&& f.mask = putAt f.lo f.value ↔ fieldAt w f.lo f.n = f.value := by
  simp only [FixedField.mask, BitVec.eq_of_getLsbD_eq_iff, BitVec.getLsbD_and, getLsbD_putAt, getLsbD_fieldAt,
    BitVec.getLsbD_allOnes]
  constructor
  · intro h i hi
    have := h (f.lo + i) (by omega)
    grind
  · intro h i hi
    have := h (i - f.lo)
    grind [BitVec.lt_of_getLsbD]

/-- Two masks with no common bit test a word apart. -/
theorem and_or_eq_or_iff {w k₁ k₂ m₁ m₂ : Word} (hk : k₁ &&& k₂ = 0) (h₁ : m₁ &&& k₁ = m₁) (h₂ : m₂ &&& k₂ = m₂) :
    w &&& (k₁ ||| k₂) = m₁ ||| m₂ ↔ w &&& k₁ = m₁ ∧ w &&& k₂ = m₂ := by
  simp only [BitVec.eq_of_getLsbD_eq_iff, BitVec.getLsbD_and, BitVec.getLsbD_or] at *
  grind

/-- A word is of a row exactly if each of the row's fields holds. -/
theorem matchesRow_rowOf (w : Word) (fs : List FixedField) (h : fitTogether fs = true) :
    matchesRow w (rowOf fs) = fs.all (FixedField.holds w) := by
  induction fs with
  | nil => simp [matchesRow, rowOf]
  | cons f fs ih =>
    simp only [fitTogether, Bool.and_eq_true, decide_eq_true_eq, beq_iff_eq] at h
    obtain ⟨⟨hf, hk⟩, hfs⟩ := h
    rw [List.all_cons, ← ih hfs, Bool.eq_iff_iff]
    simp [matchesRow, rowOf, FixedField.holds, and_mask_eq_iff hf,
      and_or_eq_or_iff hk (putAt_and_mask f) (rowOf_match_and_mask fs)]

/-- What the formats R61 to R67 fix in each row of the table: the opcode, the reserved bits and, for `LOAD`, the chain. -/
def rowFields : List (List FixedField) :=
  [[⟨28, 4, 0x1⟩, ⟨2, 26, 0⟩], [⟨28, 4, 0x2⟩, ⟨2, 26, 0⟩], [⟨28, 4, 0x3⟩, ⟨6, 22, 0⟩], [⟨28, 4, 0x4⟩, ⟨24, 4, 0⟩],
    [⟨28, 4, 0x5⟩, ⟨25, 3, 0⟩, ⟨24, 1, 0⟩, ⟨6, 18, 0⟩], [⟨28, 4, 0x5⟩, ⟨25, 3, 0⟩, ⟨24, 1, 1⟩],
    [⟨28, 4, 0x6⟩, ⟨25, 3, 0⟩, ⟨0, 24, 0⟩], [⟨28, 4, 0x7⟩, ⟨25, 3, 0⟩, ⟨0, 24, 0⟩],
    [⟨28, 4, 0x8⟩, ⟨24, 4, 0⟩, ⟨5, 3, 0⟩, ⟨3, 1, 0⟩], [⟨28, 4, 0x9⟩, ⟨4, 24, 0⟩]]

theorem opcodeRows_eq : opcodeRows = rowFields.map rowOf := by decide

/-- How many rows of the table a word is of. -/
def rowCount (w : Word) : Nat := opcodeRows.countP (matchesRow w)

theorem rowCount_eq (w : Word) : rowCount w = rowFields.countP (·.all (FixedField.holds w)) := by
  have hfit : ∀ fs ∈ rowFields, fitTogether fs = true := by decide
  rw [rowCount, opcodeRows_eq, List.countP_map]
  exact List.countP_congr fun fs hfs => by simp [matchesRow_rowOf w fs (hfit fs hfs)]

/-- The opcode of a command (R70). -/
def legalOpcode (op : BitVec 4) : Bool := decide (op ≠ 0x0) && decide (op < 0xA)

/-- The legal opcodes, `LOAD` first: it alone has two rows. -/
theorem eq_of_legalOpcode {op : BitVec 4} (h : legalOpcode op = true) :
    op = 5 ∨ op = 1 ∨ op = 2 ∨ op = 3 ∨ op = 4 ∨ op = 6 ∨ op = 7 ∨ op = 8 ∨ op = 9 := by
  revert op
  decide

theorem eq_of_not_legalOpcode {op : BitVec 4} (h : legalOpcode op = false) :
    op = 0 ∨ op = 10 ∨ op = 11 ∨ op = 12 ∨ op = 13 ∨ op = 14 ∨ op = 15 := by
  revert op
  decide

theorem ushiftRight_28 (w : Word) : w >>> 28 = (fieldAt w 28 4).setWidth 32 :=
  BitVec.eq_of_getLsbD_eq fun i hi => by
    rw [BitVec.getLsbD_ushiftRight, BitVec.getLsbD_setWidth, getLsbD_fieldAt]
    grind

theorem legalOpcode_eq_false_iff (w : Word) :
    legalOpcode (fieldAt w 28 4) = false ↔ w >>> 28 = 0 ∨ 0xA ≤ w >>> 28 := by
  rw [ushiftRight_28]
  generalize fieldAt w 28 4 = op
  revert op
  decide

/-- R70: a word with any other opcode is illegal by it, and of no row. -/
theorem decode_illegalOpcode {w : Word} (h : legalOpcode (fieldAt w 28 4) = false) :
    decode w = .error .opcode ∧ rowCount w = 0 := by
  rw [rowCount_eq]
  obtain h | h | h | h | h | h | h := eq_of_not_legalOpcode h <;>
    simp [decode, rowFields, FixedField.holds, h]

/-- `LOAD`: its chain bit says of which of its two rows it can be (R64). -/
theorem decode_load {w : Word} (h : fieldAt w 28 4 = 5) :
    ∃ zero i, decode w = ifReserved zero i ∧ rowCount w = if zero then 1 else 0 := by
  rw [rowCount_eq]
  cases hc : w[24] <;>
    exact ⟨_, _, by simp [decode, h, hc]; rfl, by simp [rowFields, FixedField.holds, h, hc, fieldAt_one, List.countP_cons]⟩

/-- With a legal opcode the reserved bits alone decide (R71): all 0, and the word decodes and is of one row; else it is illegal
and of none. -/
theorem decode_legalOpcode {w : Word} (h : legalOpcode (fieldAt w 28 4) = true) :
    ∃ zero i, decode w = ifReserved zero i ∧ rowCount w = if zero then 1 else 0 := by
  obtain h | h := eq_of_legalOpcode h
  · exact decode_load h
  · rw [rowCount_eq]
    obtain h | h | h | h | h | h | h | h := h <;>
      exact ⟨_, _, by simp [decode, h]; rfl, by simp [rowFields, FixedField.holds, h, List.countP_cons, and_assoc]⟩

end Sys2Proof.Machine

open Sys2Proof Sys2Proof.Machine

/-- Settles O3: by the opcode first (R70), then by the reserved bits (R71). -/
theorem everyWordIsOneTableRowOrIllegal : Obligations.EveryWordIsOneTableRowOrIllegal := by
  intro w
  simp only [← List.countP_eq_length_filter, ← legalOpcode_eq_false_iff]
  cases hop : legalOpcode (fieldAt w 28 4) with
  | false =>
    obtain ⟨hdec, hrows⟩ := decode_illegalOpcode hop
    exact .inr ⟨.inl hdec, hrows, by simp [hdec]⟩
  | true =>
    obtain ⟨zero, i, hdec, hrows⟩ := decode_legalOpcode hop
    cases zero with
    | true => exact .inl ⟨⟨i, hdec⟩, hrows⟩
    | false => exact .inr ⟨.inr hdec, hrows, by simp [hdec, ifReserved]⟩
end

section
/-! PROOF. The spec's encoding examples (R78). -/

open Sys2Proof Sys2Proof.Machine

/-- Settles O4: each example is one word, which the decoder evaluates. -/
theorem sampleWordsDecode : Obligations.SampleWordsDecode := by
  unfold Obligations.SampleWordsDecode
  decide
end

section
/-! PROOF. The encoder as the sums of R74, and the words of the call forms (R75). -/

namespace Sys2Proof.Machine

/-- No bit below `k` is set. -/
def clearBelow (k : Nat) (w : Word) : Prop := ∀ i < k, w.getLsbD i = false

theorem clearBelow_putAt {k lo n : Nat} (x : BitVec n) (h : k ≤ lo) : clearBelow k (putAt lo x) := by
  intro i hi
  rw [getLsbD_putAt]
  grind

theorem clearBelow_or {k : Nat} {v w : Word} (hv : clearBelow k v) (hw : clearBelow k w) : clearBelow k (v ||| w) :=
  fun i hi => by simp [hv i hi, hw i hi]

/-- A field that lies below everything set so far can be added (R74: "the fields do not overlap"). -/
theorem or_putAt_eq_add {lo n : Nat} {w : Word} (x : BitVec n) (h : clearBelow (lo + n) w) :
    w ||| putAt lo x = w + putAt lo x := by
  refine (BitVec.add_eq_or_of_and_eq_zero _ _ (BitVec.eq_of_getLsbD_eq fun i hi => ?_)).symm
  rw [BitVec.getLsbD_and, getLsbD_putAt]
  have := h i
  grind [BitVec.lt_of_getLsbD]

theorem putAt_zero {n : Nat} (x : BitVec n) : putAt 0 x = x.setWidth 32 := BitVec.shiftLeft_zero _

theorem putAt_ofBool (lo : Nat) (b : Bool) : putAt lo (BitVec.ofBool b) = bitWord b <<< lo := by
  cases b <;> rfl

theorem setWidth_bitsOfLine (l : Line) : (bitsOfLine l).setWidth 32 = BitVec.ofNat 32 (allLines.idxOf l) := by
  obtain ⟨c, f⟩ := l
  cases c <;> cases f <;> decide

theorem encode_init (cl cd : Bool) : encode (.init cl cd) = 0x10000000 + (bitWord cd <<< 1) + bitWord cl := by
  cases cl <;> cases cd <;> decide

theorem encode_shutdown (cl cd : Bool) : encode (.shutdown cl cd) = 0x20000000 + (bitWord cd <<< 1) + bitWord cl := by
  cases cl <;> cases cd <;> decide

theorem encode_setLeds (l : BitVec 6) : encode (.setLeds l) = 0x30000000 + l.setWidth 32 := by
  rw [encode, or_putAt_eq_add l (clearBelow_putAt _ (by decide)), putAt_zero]
  rfl

theorem encode_setDigits (g : BitVec 24) : encode (.setDigits g) = 0x40000000 + g.setWidth 32 := by
  rw [encode, or_putAt_eq_add g (clearBelow_putAt _ (by decide)), putAt_zero]
  rfl

theorem encode_pulse (l : Line) (r : Bool) (width : BitVec 16) :
    encode (.pulse l r width) =
      0x80000000 + (width.setWidth 32 <<< 8) + (bitWord r <<< 4) + BitVec.ofNat 32 (allLines.idxOf l) := by
  rw [encode, or_putAt_eq_add, or_putAt_eq_add, or_putAt_eq_add, putAt_zero, putAt_ofBool, setWidth_bitsOfLine]
  · rfl
  · exact clearBelow_putAt _ (by decide)
  · exact clearBelow_or (clearBelow_putAt _ (by decide)) (clearBelow_putAt _ (by decide))
  · exact clearBelow_or (clearBelow_or (clearBelow_putAt _ (by decide)) (clearBelow_putAt _ (by decide)))
      (clearBelow_putAt _ (by decide))

theorem allSome_map_some {α : Type} (vs : List α) : allSome (vs.map some) = some vs := by
  induction vs with
  | nil => rfl
  | cons v vs ih => simp [allSome, ih]

theorem packLow_lt {n : Nat} {vs : List Nat} (h : ∀ v ∈ vs, v < 2 ^ n) : packLow n vs < 2 ^ (n * vs.length) := by
  induction vs with
  | nil => simp [packLow]
  | cons v vs ih =>
    rw [List.forall_mem_cons] at h
    have hrest := ih h.2
    calc v + 2 ^ n * packLow n vs < 2 ^ n * (packLow n vs + 1) := by linarith [h.1]
      _ ≤ 2 ^ n * 2 ^ (n * vs.length) := Nat.mul_le_mul_left _ hrest
      _ = 2 ^ (n * (vs.length + 1)) := by ring

theorem ofNat_packLow_cons (n v : Nat) (vs : List Nat) :
    BitVec.ofNat 32 (packLow n (v :: vs)) = BitVec.ofNat 32 v + BitVec.ofNat 32 (packLow n vs) <<< n := by
  apply BitVec.eq_of_toNat_eq
  simp [packLow, Nat.shiftLeft_eq, Nat.mul_comm]

/-- Six packed values as a sum: value `k` shifted to its position. -/
theorem ofNat_packLow_six (n v₁ v₂ v₃ v₄ v₅ v₆ : Nat) :
    BitVec.ofNat 32 (packLow n [v₁, v₂, v₃, v₄, v₅, v₆]) =
      BitVec.ofNat 32 v₁ + (BitVec.ofNat 32 v₂ <<< n) + (BitVec.ofNat 32 v₃ <<< (n + n)) +
        (BitVec.ofNat 32 v₄ <<< (n + n + n)) + (BitVec.ofNat 32 v₅ <<< (n + n + n + n)) +
        (BitVec.ofNat 32 v₆ <<< (n + n + n + n + n)) := by
  have hnil : BitVec.ofNat 32 (packLow n []) = 0 := rfl
  simp only [ofNat_packLow_cons, hnil, BitVec.shiftLeft_add_distrib, BitVec.shiftLeft_add, BitVec.add_assoc]
  simp

theorem ofNat_toNat_bool (b : Bool) : BitVec.ofNat 32 b.toNat = bitWord b := by
  cases b <;> rfl

/-- Every Digit Value has a digit field, which is its word. -/
theorem digitFieldOfArg_argOfDigit (d : DigitValue) :
    ∃ f, digitFieldOfArg (some (argOfDigit d)) = some f ∧ f.setWidth 32 = digitWord d := by
  cases d with
  | off => exact ⟨0xF#4, rfl, rfl⟩
  | int v =>
    by_cases h : 0 ≤ v ∧ v ≤ 14
    · obtain ⟨n, rfl⟩ := Int.eq_ofNat_of_zero_le h.1
      refine ⟨BitVec.ofNat 4 n, by simp [digitFieldOfArg, argOfDigit, h.2], ?_⟩
      rw [BitVec.setWidth_ofNat_of_le_of_lt (by decide) (by omega)]
      simp [digitWord, h.2]
    · exact ⟨0xA#4, by simp [digitFieldOfArg, argOfDigit, h], by simp [digitWord, h]⟩

theorem ledBitOfArg_getD (a : Option LedArg) : ledBitOfArg (some (a.getD (.bool false))) = ledBitOfArg a := by
  cases a <;> rfl

theorem digitFieldOfArg_getD (a : Option DigitArg) : digitFieldOfArg (some (a.getD .off)) = digitFieldOfArg a := by
  cases a <;> rfl

theorem callWord_setLeds_defaults (leds : Vector (Option LedArg) 6) :
    callWord (.setLeds leds) = callWord (.setLeds (leds.map (fun a => some (a.getD (.bool false))))) := by
  simp [callWord, transcribe, Vector.toList_map, Function.comp_def, ledBitOfArg_getD]

theorem callWord_setDigits_defaults (digits : Vector (Option DigitArg) 6) :
    callWord (.setDigits digits) = callWord (.setDigits (digits.map (fun a => some (a.getD .off)))) := by
  simp [callWord, transcribe, Vector.toList_map, Function.comp_def, digitFieldOfArg_getD]

theorem callWord_setLeds {leds : Vector (Option LedArg) 6} {bits : List Bool}
    (h : leds.toList.map ledBitOfArg = bits.map some) :
    callWord (.setLeds leds) = .ok (0x30000000 + BitVec.ofNat 32 (packLow 1 (bits.map Bool.toNat))) := by
  have hlen : bits.length = 6 := by simpa using (congrArg List.length h).symm
  have hlt := packLow_lt (n := 1) (vs := bits.map Bool.toNat) (List.forall_mem_map.2 fun b _ => Bool.toNat_lt b)
  rw [List.length_map, hlen] at hlt
  simp only [callWord, transcribe, h, allSome_map_some, Except.map, encode_setLeds,
    BitVec.setWidth_ofNat_of_le_of_lt (show 6 ≤ 32 by decide) hlt]

theorem callWord_setDigits {digits : Vector (Option DigitArg) 6} {fields : List (BitVec 4)}
    (h : digits.toList.map digitFieldOfArg = fields.map some) :
    callWord (.setDigits digits) = .ok (0x40000000 + BitVec.ofNat 32 (packLow 4 (fields.map BitVec.toNat))) := by
  have hlen : fields.length = 6 := by simpa using (congrArg List.length h).symm
  have hlt := packLow_lt (n := 4) (vs := fields.map BitVec.toNat) (List.forall_mem_map.2 fun f _ => f.isLt)
  rw [List.length_map, hlen] at hlt
  simp only [callWord, transcribe, h, allSome_map_some, Except.map, encode_setDigits,
    BitVec.setWidth_ofNat_of_le_of_lt (show 24 ≤ 32 by decide) hlt]

theorem callWord_setLeds_bools (a₁ a₂ a₃ a₄ a₅ a₆ : Bool) :
    callWord (.setLeds (#v[a₁, a₂, a₃, a₄, a₅, a₆].map (fun a => some (.bool a)))) =
      .ok (0x30000000 + bitWord a₁ + (bitWord a₂ <<< 1) + (bitWord a₃ <<< 2) + (bitWord a₄ <<< 3) + (bitWord a₅ <<< 4) +
        (bitWord a₆ <<< 5)) := by
  rw [callWord_setLeds (bits := [a₁, a₂, a₃, a₄, a₅, a₆]) (by simp [ledBitOfArg])]
  simp only [List.map_cons, List.map_nil, ofNat_packLow_six, ofNat_toNat_bool, BitVec.add_assoc]
  rfl

theorem callWord_setDigits_values (d₁ d₂ d₃ d₄ d₅ d₆ : DigitValue) :
    callWord (.setDigits (#v[d₁, d₂, d₃, d₄, d₅, d₆].map (fun d => some (argOfDigit d)))) =
      .ok (0x40000000 + digitWord d₁ + (digitWord d₂ <<< 4) + (digitWord d₃ <<< 8) + (digitWord d₄ <<< 12) +
        (digitWord d₅ <<< 16) + (digitWord d₆ <<< 20)) := by
  choose field hfield hword using digitFieldOfArg_argOfDigit
  rw [callWord_setDigits (fields := [d₁, d₂, d₃, d₄, d₅, d₆].map field) (by simp [hfield])]
  simp only [List.map_cons, List.map_nil, ofNat_packLow_six, BitVec.ofNat_toNat, hword, BitVec.add_assoc]
  rfl

theorem callWord_init (a b : Option Bool) :
    callWord (.init a b) = .ok (0x10000000 + (bitWord (b.getD true) <<< 1) + bitWord (a.getD true)) := by
  rw [← encode_init]
  rfl

theorem callWord_shutdown (a b : Option Bool) :
    callWord (.shutdown a b) = .ok (0x20000000 + (bitWord (b.getD true) <<< 1) + bitWord (a.getD true)) := by
  rw [← encode_shutdown]
  rfl

theorem callWord_pulse_none (l : Line) (r : Bool) :
    callWord (.pulse l r none) = .ok (0x80000000 + (bitWord r <<< 4) + BitVec.ofNat 32 (allLines.idxOf l)) := by
  simp [callWord, transcribe, Except.map, encode_pulse]

theorem callWord_pulse_some (l : Line) (r : Bool) {n : Nat} (hn : n ≤ 65535) :
    callWord (.pulse l r (some n)) =
      .ok (0x80000000 + (BitVec.ofNat 32 n <<< 8) + (bitWord r <<< 4) + BitVec.ofNat 32 (allLines.idxOf l)) := by
  simp only [callWord, transcribe, hn, if_true, Except.map, encode_pulse,
    BitVec.setWidth_ofNat_of_le_of_lt (show 16 ≤ 32 by decide) (show n < 2 ^ 16 by omega)]

end Sys2Proof.Machine

open Sys2Proof Sys2Proof.Machine

/-- Settles O49: each row of R75 by the word of its call form; the forms with no free argument are evaluated. -/
theorem callFormsHaveTheirWords : Obligations.CallFormsHaveTheirWords :=
  ⟨callWord_init none none, callWord_shutdown none none, fun a b => ⟨callWord_init a b, callWord_shutdown a b⟩,
    by decide, by decide, callWord_setLeds_bools, callWord_setDigits_values, callWord_setLeds_defaults,
    callWord_setDigits_defaults, by decide, by decide, by decide, by decide,
    fun l r => ⟨callWord_pulse_none l r, fun n _ hn => callWord_pulse_some l r hn⟩⟩
end

section
/-! PROOF. The Digit Encoder: its two encoders agree (R88, R89), its codes (R93), and `ENCODE_DIGIT` (R90, R91). -/

namespace Sys2Proof.Machine

/-- The encoder on fields gives the valid fields back (R89). -/
theorem encF_eq_some_iff {v c : BitVec 4} : encF v = some c ↔ (v ≤ 0x9#4 ∨ v = 0xF#4) ∧ v = c := by
  simp [encF]

theorem encF_eq_none_iff {v : BitVec 4} : encF v = none ↔ ¬(v ≤ 0x9#4 ∨ v = 0xF#4) := by
  simp [encF]

/-- A field of four bits, most significant bit first. -/
theorem seqOfField_four (v : BitVec 4) :
    seqOfField v = [v.getLsbD 3, v.getLsbD 2, v.getLsbD 1, v.getLsbD 0] := rfl

theorem natOfSeq_four (b3 b2 b1 b0 : Bool) :
    natOfSeq [b3, b2, b1, b0] = 8 * b3.toNat + 4 * b2.toNat + 2 * b1.toNat + b0.toNat := by
  simp only [natOfSeq, List.foldl]
  omega

/-- A field of four bits is the number of its bit sequence (R13). -/
theorem natOfSeq_seqOfField_four (v : BitVec 4) : natOfSeq (seqOfField v) = v.toNat := by
  revert v
  decide

/-- R89: the encoder on a field's Digit Value gives the code of the encoder on the field, as a bit sequence. -/
theorem enc_digitValue (v : BitVec 4) : enc (digitValue v) = (encF v).map seqOfField := by
  by_cases hoff : v = 0xF#4
  · subst hoff
    rfl
  · by_cases hv : v ≤ 0x9#4
    · have hle : (v.toNat : Int) ≤ 9 := by exact_mod_cast hv
      simp [digitValue, hoff, enc, hle, encF_eq_some_iff.2 ⟨.inl hv, rfl⟩, seqOfField_four, BitVec.getLsbD]
    · have hle : ¬(v.toNat : Int) ≤ 9 := by exact_mod_cast hv
      simp [digitValue, hoff, enc, hle, encF_eq_none_iff.2 (not_or.2 ⟨hv, hoff⟩)]

/-- The integers of one decimal digit have a digit field (R69). -/
theorem digitValue_ofNat {n : Nat} (h : n ≤ 9) : digitValue (BitVec.ofNat 4 n) = .int n := by
  have hmod : n % 16 = n := by omega
  have hoff : BitVec.ofNat 4 n ≠ 0xF#4 := by bv_omega
  simp [digitValue, hoff, hmod]

/-- Whatever the encoder has a code for is the Digit Value of a field. -/
theorem exists_digitValue_of_enc {d : DigitValue} {code : List Bool} (h : enc d = some code) :
    ∃ v, digitValue v = d := by
  cases d with
  | off => exact ⟨0xF#4, rfl⟩
  | int v =>
    obtain ⟨⟨hpos, hle⟩, -⟩ : (0 ≤ v ∧ v ≤ 9) ∧ _ := by simpa [enc] using h
    obtain ⟨n, rfl⟩ := Int.eq_ofNat_of_zero_le hpos
    exact ⟨_, digitValue_ofNat (by exact_mod_cast hle)⟩

theorem exec_encodeDigit_of_encF_some {v c : BitVec 4} (h : encF v = some c) (s : State) :
    exec (.encodeDigit v) s = .next ((s.writeResult c).endCommand none) := by
  simp [exec_eq_runPlan, planOf, planEncodeDigit, h, runPlan, runProg]

theorem exec_encodeDigit_of_encF_none {v : BitVec 4} (h : encF v = none) (s : State) :
    exec (.encodeDigit v) s = .next (s.endCommand (some .outOfRange)) := by
  simp [exec_eq_runPlan, planOf, planEncodeDigit, h, runPlan]

end Sys2Proof.Machine

open Sys2Proof Sys2Proof.Machine

/-- Settles O27: the command ends in success or in the domain error as the encoder on its field does. -/
theorem encodeDigitWritesResultOrErr : Obligations.EncodeDigitWritesResultOrErr := by
  intro v s
  by_cases h : v ≤ 0x9#4 ∨ v = 0xF#4
  · rw [if_pos h, exec_encodeDigit_of_encF_some (encF_eq_some_iff.2 ⟨h, rfl⟩)]
    rfl
  · rw [if_neg h, exec_encodeDigit_of_encF_none (encF_eq_none_iff.2 h)]
    rfl

/-- Settles O28: by R89 as an equation, `enc_digitValue`. -/
theorem fieldEncoderIsTheEncoder : Obligations.FieldEncoderIsTheEncoder := by
  intro v
  refine ⟨rfl, by simp [enc_digitValue], fun c h => ?_⟩
  obtain ⟨-, rfl⟩ := encF_eq_some_iff.1 h
  simp [enc_digitValue, h]

/-- Settles O29: a code is the bit sequence of a valid field. -/
theorem encoderProducesOnlyItsCodes : Obligations.EncoderProducesOnlyItsCodes := by
  intro d code h
  obtain ⟨v, rfl⟩ := exists_digitValue_of_enc h
  rw [enc_digitValue, Option.map_eq_some_iff] at h
  obtain ⟨c, hc, rfl⟩ := h
  obtain ⟨hv, rfl⟩ := encF_eq_some_iff.1 hc
  rw [natOfSeq_seqOfField_four]
  exact ⟨rfl, hv.imp id (congrArg BitVec.toNat)⟩

/-- Settles O30: the code of `0` to `9` is the bit sequence of its field, whose number is the integer. -/
theorem encoderGivesTheBinaryCode : Obligations.EncoderGivesTheBinaryCode := by
  refine ⟨rfl, fun v => ⟨fun ⟨hpos, hle⟩ => ?_, fun h => if_neg h⟩⟩
  obtain ⟨n, rfl⟩ := Int.eq_ofNat_of_zero_le hpos
  have hn : n ≤ 9 := by exact_mod_cast hle
  have hfield : BitVec.ofNat 4 n ≤ 0x9#4 := by bv_omega
  have hnum : natOfSeq (seqOfField (BitVec.ofNat 4 n)) = n := by
    rw [natOfSeq_seqOfField_four, BitVec.toNat_ofNat]
    omega
  rw [seqOfField_four, natOfSeq_four] at hnum
  refine ⟨_, _, _, _, ?_, by exact_mod_cast hnum.symm⟩
  rw [← digitValue_ofNat hn, enc_digitValue, encF_eq_some_iff.2 ⟨.inl hfield, rfl⟩]
  rfl
end

section
/-! PROOF. The Output Controller: `ENABLE` and `DISABLE` keep the chains' content (R112 to R114). -/

namespace Sys2Proof.Machine

/-- The pseudocode that `ENABLE` and `DISABLE` share: the enable line of a chain goes to a level (R112, R113). -/
def setOutput (c : ChainId) (b : Bool) : Prog := block [.op .abort, .op (.set ⟨c, .oe⟩ b)]

theorem exec_enable {s : State} (c : ChainId) (hc : s.configured = true) :
    exec (.enable c) s = .next (finish (runProg (setOutput c s.cfg.oeActive) s)) := by
  simp [exec_eq_runPlan, planOf, planEnable, ifConfigured, hc, runPlan, setOutput, setEnable]

theorem exec_disable {s : State} (c : ChainId) (hc : s.configured = true) :
    exec (.disable c) s = .next (finish (runProg (setOutput c (!s.cfg.oeActive)) s)) := by
  simp [exec_eq_runPlan, planOf, planDisable, ifConfigured, hc, runPlan, setOutput, setDisable]

/-- A run from `s` to `t` that moves no stage of either chain, and whose calls and holds are at most one set, of the enable line
of chain `c` (R114). -/
def KeepsContent (c : ChainId) (s t : State) : Prop :=
  ∃ evs, t.trace = s.trace ++ evs ∧ (∀ d, (t.chain d).sr = (s.chain d).sr ∧ (t.chain d).st = (s.chain d).st) ∧
    (evs.filter isCallOrHold = [] ∨ ∃ v ok, evs.filter isCallOrHold = [.set ⟨c, .oe⟩ v ok])

theorem KeepsContent.endCommand {c : ChainId} {s t : State} (h : KeepsContent c s t) (e : Option Err) :
    KeepsContent c s (t.endCommand e) := by
  obtain ⟨evs, htrace, hstages, hcalls⟩ := h
  exact ⟨evs ++ [.ended e], by simp [htrace], by simpa using hstages, by simpa [isCallOrHold] using hcalls⟩

/-- A set of a driven enable line is no active edge: it moves no stage (R39). -/
theorem driveLine_oe_stages {c : ChainId} {s : State} (ho : s.line ⟨c, .oe⟩ ≠ .z) (b : Bool) (d : ChainId) :
    ((driveLine ⟨c, .oe⟩ (levelOf b) s).chain d).sr = (s.chain d).sr ∧
      ((driveLine ⟨c, .oe⟩ (levelOf b) s).chain d).st = (s.chain d).st := by
  by_cases hd : d = c
  · subst hd
    rw [driveLine_at d .oe b s ho (by simp)]
    simp [Chain.drive]
  · rw [driveLine_chain_other _ _ _ _ hd]
    exact ⟨rfl, rfl⟩

/-- However its abort point and its set end, the shared pseudocode keeps the chains' content. -/
theorem setOutput_keepsContent {c : ChainId} {s : State} (b : Bool) (hc : s.configured = true)
    (ho : s.line ⟨c, .oe⟩ ≠ .z) :
    Holds (runProg (setOutput c b) s) (KeepsContent c s) (fun _ => KeepsContent c s) := by
  have habort : Triple (· = s) (.op .abort) (· = s.afterIrq.emit (.abortPoint false)) (fun _ => KeepsContent c s) := by
    rintro _ rfl
    exact abortPoint_holds _ rfl ⟨[.abortPoint true], by simp [isCallOrHold]⟩
  have hset : Triple (· = s.afterIrq.emit (.abortPoint false)) (.op (.set ⟨c, .oe⟩ b)) (KeepsContent c s)
      (fun _ => KeepsContent c s) := by
    rintro _ rfl
    have key : ∀ u ok, KeepsContent c s
        ((driveLine ⟨c, .oe⟩ (levelOf u) (s.afterIrq.emit (.abortPoint false)).afterGpio).emit (.set ⟨c, .oe⟩ b ok)) := by
      intro u ok
      have hstages := driveLine_oe_stages (s := (s.afterIrq.emit (.abortPoint false)).afterGpio) (c := c)
        (by simpa [State.line] using ho) u
      exact ⟨[.abortPoint false, .set ⟨c, .oe⟩ b ok], by simp, by simpa using hstages, .inr ⟨b, ok, rfl⟩⟩
    exact gpioSet_holds _ _ _ (by simpa using hc) (key b true) (fun u => key u false)
  exact Triple.seq habort (Triple.seq hset Triple.skip) s rfl

/-- A command that ends without a fault keeps the content if its pseudocode does. -/
theorem keepsContent_finish {c : ChainId} {s : State} {x : Exit}
    (h : Holds x (KeepsContent c s) (fun _ => KeepsContent c s)) : KeepsContent c s (finish x) := by
  cases x with
  | done t => exact KeepsContent.endCommand h none
  | raised e t => exact KeepsContent.endCommand h (some e)
  | faulted t => exact h.elim

/-- In a quiet environment the shared pseudocode drives the enable line, and the environment stays quiet. -/
theorem setOutput_quiet {c : ChainId} {s : State} (b : Bool) (hc : s.configured = true) (hq : s.quiet = true)
    (ho : s.line ⟨c, .oe⟩ ≠ .z) :
    ∃ t, finish (runProg (setOutput c b) s) = t ∧ t.quiet = true ∧
      At c s.cfg ((s.chain c).drive (s.cfg.depth c) .oe b) t := by
  obtain ⟨t, hrun, -, htq, -⟩ := runProg_quiet (setOutput c b) (by simp [setOutput, opsOf, block, isPlain]) s hc hq
  have hat : Triple (At c s.cfg (s.chain c)) (setOutput c b) (At c s.cfg ((s.chain c).drive (s.cfg.depth c) .oe b))
      (fun _ _ => True) :=
    (abort_at.conseq (fun _ h => h) (fun _ h => h) (fun _ _ _ => trivial)).seq
      (((set_at .oe b ho (by simp)).conseq (fun _ h => h) (fun _ h => h) (fun _ _ _ => trivial)).seq Triple.skip)
  have hend := hat s ⟨hc, rfl, rfl⟩
  rw [hrun] at hend
  obtain ⟨htc, htg, htx⟩ := hend
  exact ⟨t.endCommand none, by rw [hrun, finish_done], htq, htc, htg, by rw [State.endCommand_chain, htx]⟩

/-- A chain whose enable line is driven shows its latched content exactly if the level is the active one (R40). -/
theorem State.visible_of_oe {c : ChainId} {s : State} {b : Bool} (h : s.line ⟨c, .oe⟩ = levelOf b) :
    s.visible c = if b = s.cfg.oeActive then .shows (s.chain c).st else .off := by
  have hoe : (s.chain c).lines.oe = levelOf b := h
  cases b <;> cases ha : s.cfg.oeActive <;> simp [State.visible, hoe, ha, levelOf]

/-- What is shown after a set of the enable line: the latched content from before it, or nothing. -/
theorem At.visible_drive_oe {c : ChainId} {g : Board} {x : Chain} {d : Nat} {b : Bool} {t : State}
    (h : At c g (x.drive d .oe b) t) : t.visible c = if b = g.oeActive then .shows x.st else .off := by
  obtain ⟨-, rfl, hx⟩ := h
  have hline : t.line ⟨c, .oe⟩ = levelOf b := by simp [State.line, hx]
  rw [State.visible_of_oe hline, hx]
  simp [Chain.drive]

end Sys2Proof.Machine

open Sys2Proof Sys2Proof.Machine

/-- Settles O39: both commands are one set of the enable line, which is no active edge, so after `DISABLE` and `ENABLE` the latched
content is shown again. -/
theorem blankingKeepsTheContent : Obligations.BlankingKeepsTheContent := by
  intro c s hc ho
  constructor
  · rintro i (rfl | rfl)
    · obtain ⟨evs, h⟩ := keepsContent_finish (setOutput_keepsContent s.cfg.oeActive hc ho)
      exact ⟨_, evs, exec_enable c hc, h⟩
    · obtain ⟨evs, h⟩ := keepsContent_finish (setOutput_keepsContent (!s.cfg.oeActive) hc ho)
      exact ⟨_, evs, exec_disable c hc, h⟩
  · intro hq hactive
    obtain ⟨t, hdisable, htq, htat⟩ := setOutput_quiet (!s.cfg.oeActive) hc hq ho
    have hoff := htat.visible_drive_oe
    obtain ⟨htc, htg, htx⟩ := htat
    have hto : t.line ⟨c, .oe⟩ ≠ .z := by simp [State.line, htx]
    obtain ⟨u, henable, -, huat⟩ := setOutput_quiet t.cfg.oeActive htc htq hto
    refine ⟨t, u, by rw [exec_disable c hc, hdisable], by rw [exec_enable c htc, henable], by simpa using hoff, ?_⟩
    calc u.visible c = .shows (t.chain c).st := by simpa using huat.visible_drive_oe
      _ = .shows (s.chain c).st := by simp [htx, Chain.drive]
      _ = s.visible c := by simp [State.visible_of_oe hactive]
end

section
/-! PROOF. A load of a chain at rest that meets no interrupt and no failure (R103, R107). -/

namespace Sys2Proof.Machine

/-- The sequence and the stages of a field have the field's width. -/
@[simp] theorem seqOfField_length {n : Nat} (b : BitVec n) : (seqOfField b).length = n := by
  simp [seqOfField]

@[simp] theorem stagesOfField_length {n : Nat} (b : BitVec n) : (stagesOfField b).length = n := by
  simp [stagesOfField]

/-- Stage `k` of loaded stages holds bit `k - 1` of the field (R46). -/
theorem stageOf_stagesOfField_append {n k : Nat} (b : BitVec n) (rest : List Bool) (h1 : 1 ≤ k) (hn : k ≤ n) :
    stageOf (stagesOfField b ++ rest) k = b.getLsbD (k - 1) := by
  have hk : k - 1 < n := by omega
  simp [stageOf, stagesOfField, List.getD, List.getElem?_append_left, hk]

/-- A chain at rest after a load of a field, at depth `d`: the field in front in both registers, the old stages behind it, and the
lines as R107 leaves them. -/
def Chain.loaded (d : Nat) {n : Nat} (b : BitVec n) (x : Chain) : Chain :=
  { lines := { ser := levelOf (b.getLsbD 0), clk := .lo, lat := .lo, oe := x.lines.oe }
    sr := stagesOfField b ++ x.sr.take (d - n)
    st := stagesOfField b ++ x.sr.take (d - n)
    redraws := x.redraws + n + 1 }

@[simp] theorem Chain.loaded_lines (d : Nat) {n : Nat} (b : BitVec n) (x : Chain) :
    (x.loaded d b).lines = { ser := levelOf (b.getLsbD 0), clk := .lo, lat := .lo, oe := x.lines.oe } := rfl

@[simp] theorem Chain.loaded_st (d : Nat) {n : Nat} (b : BitVec n) (x : Chain) :
    (x.loaded d b).st = stagesOfField b ++ x.sr.take (d - n) := rfl

/-- A load leaves its chain ready for the next one (R107). -/
@[simp] theorem Chain.loaded_atRest (d : Nat) {n : Nat} (b : BitVec n) (x : Chain) : (x.loaded d b).atRest = true := by
  simp [Chain.atRest]

/-- What a chain at rest is, line by line (R86, R176). -/
theorem Chain.atRest_iff {x : Chain} :
    x.atRest = true ↔ x.lines.ser ≠ .z ∧ x.lines = { ser := x.lines.ser, clk := .lo, lat := .lo, oe := x.lines.oe } := by
  obtain ⟨⟨ser, clk, lat, oe⟩, sr, st, n⟩ := x
  simp [Chain.atRest, and_assoc]

/-- A triple of which only the success counts. -/
theorem Triple.anyError {P Q : State → Prop} {E : Err → State → Prop} {p : Prog} (h : Triple P p Q E) :
    Triple P p Q (fun _ _ => True) :=
  h.conseq (fun _ hP => hP) (fun _ hQ => hQ) (fun _ _ _ => trivial)

/-- The pseudocode of a load loads its field, where it succeeds. -/
theorem progLoad_at {c : ChainId} {g : Board} {x : Chain} {n : Nat} (b : BitVec (n + 1)) (hx : x.atRest = true)
    (hd : n + 1 ≤ g.depth c) :
    Triple (At c g x) (progLoad g c (seqOfField b)) (At c g (x.loaded (g.depth c) b)) (fun _ _ => True) := by
  obtain ⟨hser, hlines⟩ := Chain.atRest_iff.1 hx
  have hload := loadSeq_at (c := c) (g := g) g.tPulse x.lines.oe x.st (seqOfField b) x.lines.ser x.sr x.redraws hser
  rw [← hlines, serAfter_field, shiftAll_field b x.sr n.succ_ne_zero hd, seqOfField_length] at hload
  exact abort_at.anyError.seq (hload.anyError.seq Triple.skip)

theorem isPlain_of_mem_progLoad {g : Board} {c : ChainId} {bits : List Bool} {o : Op} (h : o ∈ opsOf (progLoad g c bits)) :
    isPlain o = true := by
  have ho : o = .abort ∨ o ∈ opsOf (loadSeq g.tPulse c bits) := by
    simpa [progLoad, opsOf_block_cons, opsOf_block_nil, opsOf] using h
  rcases ho with rfl | ho
  · rfl
  · obtain rfl | rfl | ⟨f, v, -, rfl⟩ := mem_opsOf_loadSeq ho <;> rfl

/-- In a quiet environment a load of a chain at rest ends with success, its field loaded, and the environment stays quiet. -/
theorem progLoad_quiet {c : ChainId} {s : State} {n : Nat} (b : BitVec (n + 1)) (hc : s.configured = true)
    (hq : s.quiet = true) (hx : (s.chain c).atRest = true) (hd : n + 1 ≤ s.cfg.depth c) :
    ∃ t, finish (runProg (progLoad s.cfg c (seqOfField b)) s) = t ∧ EndedWell t ∧ t.quiet = true ∧
      At c s.cfg ((s.chain c).loaded (s.cfg.depth c) b) t := by
  obtain ⟨t, hrun, -, htq, -⟩ :=
    runProg_quiet (progLoad s.cfg c (seqOfField b)) (fun _ => isPlain_of_mem_progLoad) s hc hq
  have hend := progLoad_at b hx hd s ⟨hc, rfl, rfl⟩
  rw [hrun] at hend
  obtain ⟨htc, htg, htx⟩ := hend
  exact ⟨t.endCommand none, by rw [hrun, finish_done], ⟨rfl, rfl, rfl⟩, htq, htc, htg,
    by rw [State.endCommand_chain, htx]⟩

end Sys2Proof.Machine
end

section
/-! PROOF. The Board Facade: `SET_LEDS` and `SET_DIGITS` are loads of their operands (R125, R131), and what they show (R126,
R132). -/

namespace Sys2Proof.Machine

/-! ### SET_LEDS -/

/-- The sequence of `SET_LEDS` is that of its field (R13, R125). -/
theorem ledSequence_eq (l : BitVec 6) : ledSequence l = seqOfField l :=
  List.reverse_eq_iff.2 (seqOfField_reverse l).symm

theorem exec_setLeds {s : State} (l : BitVec 6) (hc : s.configured = true) :
    exec (.setLeds l) s = .next (finish (runProg (progLoad s.cfg .led (seqOfField l)) s)) := by
  simp [exec_eq_runPlan, planOf, planSetLeds, ifConfigured, hc, runPlan, ledSequence_eq]

/-- A quiet `SET_LEDS` on a chain at rest ends with success and its field loaded, and the environment stays quiet. -/
theorem exec_setLeds_quiet {s : State} (l : BitVec 6) (hc : s.configured = true) (hq : s.quiet = true)
    (hx : s.led.atRest = true) :
    ∃ t, exec (.setLeds l) s = .next t ∧ EndedWell t ∧ t.quiet = true ∧
      At .led s.cfg (s.led.loaded (s.cfg.depth .led) l) t := by
  obtain ⟨t, hrun, hend⟩ := progLoad_quiet (c := .led) l hc hq hx (Nat.le_add_left 6 _)
  exact ⟨t, by rw [exec_setLeds l hc, hrun], hend⟩

theorem exists_levelOf {v : Level} (h : v ≠ .z) : ∃ b, v = levelOf b := by
  cases v with
  | lo => exact ⟨false, rfl⟩
  | hi => exact ⟨true, rfl⟩
  | z => exact absurd rfl h

/-- With its enable line driven, an LED is lit exactly if its stage is 1 and the line is at its active level (R40, R43). -/
theorem ledLit_iff {t : State} (ho : t.led.lines.oe ≠ .z) (k : Nat) :
    t.ledLit k = true ↔ stageOf t.led.st k = true ∧ t.led.lines.oe = levelOf t.cfg.oeActive := by
  obtain ⟨b, hb⟩ := exists_levelOf ho
  have hvis := State.visible_of_oe (c := .led) (s := t) hb
  by_cases ha : b = t.cfg.oeActive
  · simp [State.ledLit, hvis, hb, ha]
  · have hne : levelOf b ≠ levelOf t.cfg.oeActive := fun h => ha (levelOf_inj h)
    simp [State.ledLit, hvis, hb, ha, hne]

/-! ### SET_DIGITS -/

/-- Fields that are all valid are their own codes (R89). -/
theorem encodeFields_of_valid {vs : List (BitVec 4)} (h : ∀ v ∈ vs, encF v = some v) : encodeFields vs = some vs := by
  induction vs with
  | nil => rfl
  | cons v vs ih =>
    obtain ⟨hv, hvs⟩ := List.forall_mem_cons.1 h
    simp [encodeFields, hv, ih hvs]

/-- One field out of range leaves no code for any (R129). -/
theorem encodeFields_of_invalid {vs : List (BitVec 4)} {v : BitVec 4} (hm : v ∈ vs) (hv : encF v = none) :
    encodeFields vs = none := by
  induction vs with
  | nil => cases hm
  | cons w ws ih =>
    rcases List.mem_cons.1 hm with rfl | hm
    · simp [encodeFields, hv]
    · cases hw : encF w <;> simp [encodeFields, hw, ih hm]

theorem mem_digitFields {g : BitVec 24} {v : BitVec 4} :
    v ∈ [1, 2, 3, 4, 5, 6].map (digitField g) ↔ ∃ k, 1 ≤ k ∧ k ≤ 6 ∧ digitField g k = v := by
  have hk : ∀ k, k ∈ [1, 2, 3, 4, 5, 6] ↔ 1 ≤ k ∧ k ≤ 6 := by
    intro k
    simp only [List.mem_cons, List.not_mem_nil, or_false]
    omega
  simp only [List.mem_map, hk, and_assoc]

/-- The six digit fields in the order 6 to 1, most significant bit first, are the whole operand (R63, R130). -/
theorem seqOfField_digitFields (g : BitVec 24) :
    ((([1, 2, 3, 4, 5, 6].map (digitField g)).reverse).map seqOfField).flatten = seqOfField g := by
  simp [digitField, seqOfField, List.range_succ_eq_map, BitVec.getMsbD]

theorem encF_digitField {g : BitVec 24} (hg : allDigitsValid g) {k : Nat} (h1 : 1 ≤ k) (h6 : k ≤ 6) :
    encF (digitField g k) = some (digitField g k) :=
  encF_eq_some_iff.2 ⟨hg k h1 h6, rfl⟩

/-- With every digit valid, the sequence of `SET_DIGITS` is that of its operand (R131). -/
theorem digitSequence_of_valid {g : BitVec 24} (hg : allDigitsValid g) : digitSequence g = some (seqOfField g) := by
  have hcodes : encodeFields ([1, 2, 3, 4, 5, 6].map (digitField g)) = some ([1, 2, 3, 4, 5, 6].map (digitField g)) := by
    refine encodeFields_of_valid fun v hv => ?_
    obtain ⟨k, h1, h6, rfl⟩ := mem_digitFields.1 hv
    exact encF_digitField hg h1 h6
  rw [digitSequence, hcodes, Option.map_some, seqOfField_digitFields]

/-- With one digit out of range, `SET_DIGITS` has no sequence (R129, R131). -/
theorem digitSequence_of_invalid {g : BitVec 24} (hg : ¬allDigitsValid g) : digitSequence g = none := by
  simp only [allDigitsValid, not_forall] at hg
  obtain ⟨k, h1, h6, hk⟩ := hg
  rw [digitSequence, encodeFields_of_invalid (mem_digitFields.2 ⟨k, h1, h6, rfl⟩) (encF_eq_none_iff.2 hk), Option.map_none]

/-- R131: with every digit valid, `SET_DIGITS` is the load of its operand. -/
theorem exec_setDigits_of_valid {g : BitVec 24} (hg : allDigitsValid g) (s : State) :
    exec (.setDigits g) s = exec (.loadDig g) s := by
  simp [exec_eq_runPlan, planOf, planSetDigits, planLoad, digitSequence_of_valid hg]

theorem exec_setDigits_of_invalid {g : BitVec 24} (hg : ¬allDigitsValid g) {s : State} (hc : s.configured = true) :
    exec (.setDigits g) s = .next (s.endCommand (some .outOfRange)) := by
  simp [exec_eq_runPlan, planOf, planSetDigits, ifConfigured, hc, digitSequence_of_invalid hg, runPlan]

theorem exec_loadDig {s : State} (b : BitVec 24) (hc : s.configured = true) :
    exec (.loadDig b) s = .next (finish (runProg (progLoad s.cfg .dig (seqOfField b)) s)) := by
  simp [exec_eq_runPlan, planOf, planLoad, ifConfigured, hc, runPlan]

theorem eq_append_getLsbD (v : BitVec 4) :
    BitVec.ofBool (v.getLsbD 3) ++ BitVec.ofBool (v.getLsbD 2) ++ BitVec.ofBool (v.getLsbD 1) ++
      BitVec.ofBool (v.getLsbD 0) = v := by
  revert v
  decide

/-- The nibble of digit `k` in the stages of an operand is its digit field (R44, R63). -/
theorem digitNibble_stagesOfField (g : BitVec 24) {k : Nat} (h1 : 1 ≤ k) (h6 : k ≤ 6) :
    digitNibble (stagesOfField g) k = digitField g k := by
  have hstage : ∀ j < 4, stageOf (stagesOfField g) (4 * k - j) = (digitField g k).getLsbD (3 - j) := by
    intro j hj
    have h := stageOf_stagesOfField_append (k := 4 * k - j) g [] (by omega) (by omega)
    rw [List.append_nil] at h
    rw [h, digitField, BitVec.getLsbD_extractLsb', show 4 * k - 4 + (3 - j) = 4 * k - j - 1 by omega]
    simp [show 3 - j < 4 by omega]
  have htop : stageOf (stagesOfField g) (4 * k) = (digitField g k).getLsbD 3 := hstage 0 (by omega)
  rw [digitNibble, htop, hstage 1 (by omega), hstage 2 (by omega), hstage 3 (by omega)]
  exact eq_append_getLsbD _

/-- With the chain enabled, a tube shows what its nibble says (R40, R44). -/
theorem tube_of_enabled {t : State} (h : t.dig.lines.oe = levelOf t.cfg.oeActive) (k : Nat) :
    t.tube k = tubeOf t k (digitNibble t.dig.st k) := by
  have hvis := State.visible_of_oe (c := .dig) (s := t) h
  rw [if_pos rfl] at hvis
  simp [State.tube, hvis]

theorem tubeOf_off (t : State) (k : Nat) : tubeOf t k 0xF#4 = .blank := rfl

theorem tubeOf_numeral (t : State) (k : Nat) {v : BitVec 4} {n : Fin 10} (h : v.toNat = n.val) :
    tubeOf t k v = .numeral n := by
  simp [tubeOf, h]

end Sys2Proof.Machine

open Sys2Proof Sys2Proof.Machine

/-- Settles O43: it is the load of its field, which leaves the chain ready for the same load again. -/
theorem setLedsLightsItsLeds : Obligations.SetLedsLightsItsLeds := by
  intro l s hc hq hx ho
  obtain ⟨t, ht, htend, htq, htc, htg, htx⟩ := exec_setLeds_quiet l hc hq hx
  rw [State.chain_led] at htx
  obtain ⟨u, hu, huend, -, -, -, hux⟩ := exec_setLeds_quiet l htc htq (by simp [htx])
  rw [State.chain_led] at hux
  refine ⟨t, ht, htend, by simp [htx], fun k h1 h6 => ?_, u, hu, huend, by simp [htx, hux]⟩
  rw [ledLit_iff (by simpa [htx] using ho), htx, htg, Chain.loaded_st, stageOf_stagesOfField_append l _ h1 h6]
  rfl

/-- Settles O44: the six fields joined are the operand, and an invalid one leaves no sequence to load. -/
theorem setDigitsIsTheDigitLoad : Obligations.SetDigitsIsTheDigitLoad := by
  intro g
  exact ⟨fun hg => ⟨fun _ h1 h6 => encF_digitField hg h1 h6, digitSequence_of_valid hg, exec_setDigits_of_valid hg⟩,
    fun hg s hc => ⟨_, exec_setDigits_of_invalid hg hc, rfl⟩⟩

/-- Settles O46: it is the load of its operand, whose nibbles are the digit fields. -/
theorem setDigitsShowsItsDigits : Obligations.SetDigitsShowsItsDigits := by
  intro g s hc hq hx hg
  obtain ⟨t, hrun, hend, -, -, htg, htx⟩ := progLoad_quiet (c := .dig) g hc hq hx (Nat.le_refl 24)
  rw [State.chain_dig] at htx
  have hst : t.dig.st = stagesOfField g := by simp [htx, Board.depth]
  have hnibble : ∀ k, 1 ≤ k → k ≤ 6 → digitNibble t.dig.st k = digitField g k := by
    intro k h1 h6
    rw [hst, digitNibble_stagesOfField g h1 h6]
  refine ⟨t, by rw [exec_setDigits_of_valid hg, exec_loadDig g hc, hrun], hend, hst, hnibble, fun ho k h1 h6 => ?_⟩
  rw [tube_of_enabled (by simpa [htx, htg] using ho), hnibble k h1 h6]
  exact ⟨fun hoff => by rw [hoff, tubeOf_off], fun _ hn => tubeOf_numeral t k hn⟩
end

section
/-! PROOF. A command on a ready machine, and the end of an illegal one in the decoder (R146, R147). -/

namespace Sys2Proof.Machine

/-- An idle machine without a fault is ready (R33, R149). -/
theorem ifReady_of_idle {s : State} (hf : s.faults = []) (hb : s.busy = false) (hq : s.seq = .idle)
    (k : Host.Outcome State Fault Refusal) : ifReady s k = k := by
  rw [ifReady, if_neg (not_not_intro hf), if_pos ⟨hb, hq⟩]

theorem State.nextAction_of_host {s : State} {e : HostEvent} {rest : List HostEvent} (hh : s.host = e :: rest) :
    s.nextAction = (e, { s with host := rest }) := by
  rw [State.nextAction, hh]

/-- A step of a ready machine whose host gives a command runs that command to its end (R22, R33). -/
theorem step_command {s : State} {w : Word} {rest : List HostEvent} (hwf : s.cfg.wellFormed = true) (hf : s.faults = [])
    (hb : s.busy = false) (hq : s.seq = .idle) (hh : s.host = .command w :: rest) :
    step s = runCommand w { s with host := rest } := by
  rw [step_eq s hwf, State.nextAction_of_host hh]
  exact ifReady_of_idle (s := { s with host := rest }) hf hb hq _

/-- An illegal word ends in the decoder (R73, R147). -/
theorem runCommand_of_illegal {w : Word} {x : IllegalWord} (hw : decode w = .error x) (s : State) :
    runCommand w s = .next ((s.issue w).endCommand (some .illegalCommand)) := by
  rw [runCommand, hw]

/-- Issue and end of a command on an idle machine undo each other but for `ERR` and the record of the end (R33, R146). -/
theorem State.endCommand_issue_of_idle {s : State} (hb : s.busy = false) (hq : s.seq = .idle) (w : Word) (e : Option Err) :
    (s.issue w).endCommand e = { s with err := e, trace := s.trace ++ [.ended e] } := by
  rw [State.issue, State.endCommand, ← hb, ← hq]

/-- `STATUS` of an idle machine whose last command was illegal: `ERR` is 4, `BUSY` is 0 (R34, R142). -/
theorem State.status_of_illegal {t : State} (he : t.err = some .illegalCommand) (hb : t.busy = false) :
    t.status = 0x40 ||| (BitVec.ofBool t.configured).setWidth 32 := by
  rw [State.status, he, hb]
  cases t.configured <;> rfl

end Sys2Proof.Machine

open Sys2Proof Sys2Proof.Machine

/-- Settles O6: the word is issued and ends in the decoder, and on an idle machine that leaves only `ERR` and the record. -/
theorem illegalWordChangesOnlyErr : Obligations.IllegalWordChangesOnlyErr := by
  intro s w rest x hwf hf hb hq hh hw
  have hstep : step s = .next { s with
      host := rest, err := some .illegalCommand, trace := s.trace ++ [.ended (some .illegalCommand)] } := by
    rw [step_command hwf hf hb hq hh, runCommand_of_illegal hw,
      State.endCommand_issue_of_idle (s := { s with host := rest }) hb hq]
  refine ⟨hstep, fun t ht => ?_⟩
  obtain rfl := Host.Outcome.next.inj (hstep.symm.trans ht)
  exact State.status_of_illegal rfl hb
end

section
/-! PROOF. Decoder and encoder undo each other (R61 to R67, R71). -/

namespace Sys2Proof.Machine

/-! ### A field of a word made of fields -/

@[simp] theorem getElem_fieldAt (w : Word) (lo n i : Nat) (hi : i < n) : (fieldAt w lo n)[i] = w.getLsbD (lo + i) := by
  rw [← BitVec.getLsbD_eq_getElem, getLsbD_fieldAt, decide_eq_true hi, Bool.true_and]

@[simp] theorem getElem_putAt (lo : Nat) {n : Nat} (x : BitVec n) (i : Nat) (hi : i < 32) :
    (putAt lo x)[i] = (decide (lo ≤ i) && x.getLsbD (i - lo)) := by
  rw [← BitVec.getLsbD_eq_getElem, getLsbD_putAt, decide_eq_true hi, Bool.true_and]

theorem fieldAt_or (v w : Word) (lo n : Nat) : fieldAt (v ||| w) lo n = fieldAt v lo n ||| fieldAt w lo n :=
  BitVec.eq_of_getLsbD_eq fun i hi => by simp [hi]

theorem fieldAt_putAt_same {lo n : Nat} (x : BitVec n) (h : lo + n ≤ 32) : fieldAt (putAt lo x) lo n = x :=
  BitVec.eq_of_getLsbD_eq fun i hi => by simp [hi, show lo + i < 32 by omega]

/-- A field is 0 where another one lies clear of it (R74: "the fields do not overlap"). -/
theorem fieldAt_putAt_clear {lo n lo' n' : Nat} (x : BitVec n) (h : lo' + n' ≤ lo ∨ lo + n ≤ lo') :
    fieldAt (putAt lo x) lo' n' = 0 :=
  BitVec.eq_of_getLsbD_eq fun i hi => by
    have hx : x.getLsbD (lo' + i - lo) = true → lo' + i - lo < n := BitVec.lt_of_getLsbD
    simp only [getLsbD_fieldAt, getLsbD_putAt]
    grind

theorem lineOfBits_bitsOfLine (l : Line) : lineOfBits (bitsOfLine l) = l := by
  obtain ⟨c, f⟩ := l
  cases c <;> cases f <;> rfl

theorem bitsOfLine_lineOfBits (n : BitVec 3) : bitsOfLine (lineOfBits n) = n := by
  revert n
  decide

theorem bitOfChain_chainOfBit (c : Bool) : bitOfChain (chainOfBit c) = BitVec.ofBool c := by
  cases c <;> rfl

@[simp] theorem ifReserved_true (i : Instr) : ifReserved true i = .ok i := rfl

theorem ifReserved_eq_ok {zero : Bool} {i j : Instr} : ifReserved zero i = .ok j ↔ zero = true ∧ i = j := by
  cases zero <;> simp [ifReserved]

theorem decode_encode (i : Instr) : decode (encode i) = .ok i := by
  cases i with
  | enable c | disable c =>
    cases c <;> simp [decode, encode, fieldAt_or, fieldAt_putAt_same, fieldAt_putAt_clear, bitOfChain, chainOfBit]
  | pulse l r width =>
    simp [decode, encode, fieldAt_or, fieldAt_putAt_same, fieldAt_putAt_clear, lineOfBits_bitsOfLine]
  | _ => simp [decode, encode, fieldAt_or, fieldAt_putAt_same, fieldAt_putAt_clear, bitOfChain]

/-! ### A word is made of its fields -/

/-- The fields of a word from bit `lo` on, of the widths given, each at its place. -/
def joinFields (w : Word) : Nat → List Nat → Word
  | _, [] => 0
  | lo, n :: ns => joinFields w (lo + n) ns ||| putAt lo (fieldAt w lo n)

theorem joinFields_eq (w : Word) (lo : Nat) (ns : List Nat) : joinFields w lo ns = putAt lo (fieldAt w lo ns.sum) := by
  induction ns generalizing lo with
  | nil => exact BitVec.eq_of_getLsbD_eq fun i hi => by simp [joinFields]
  | cons n ns ih =>
    refine BitVec.eq_of_getLsbD_eq fun i hi => ?_
    simp only [joinFields, ih, BitVec.getLsbD_or, getLsbD_putAt, getLsbD_fieldAt, List.sum_cons]
    grind

/-- Fields that fill the word are the word: no bit of it is lost. -/
theorem joinFields_all (w : Word) (ns : List Nat) (h : ns.sum = 32) : joinFields w 0 ns = w := by
  rw [joinFields_eq, h]
  exact BitVec.eq_of_getLsbD_eq fun i hi => by simp [hi]

@[simp] theorem putAt_of_zero (lo n : Nat) : putAt lo (0#n) = 0 :=
  BitVec.eq_of_getLsbD_eq fun i hi => by simp

theorem opcode_eq {w : Word} {k : Nat} (h : (fieldAt w 28 4).toNat = k) : fieldAt w 28 4 = BitVec.ofNat 4 k := by
  rw [← h, BitVec.ofNat_toNat, BitVec.setWidth_eq]

/-- A command read where the reserved bits are 0 has the word it was read from, if its word is the join of fields that fill it. -/
theorem encode_eq_of_join {w : Word} {zero : Bool} {i j : Instr} (ns : List Nat) (hsum : ns.sum = 32)
    (h : ifReserved zero i = .ok j) (hi : zero = true → encode i = joinFields w 0 ns) : encode j = w := by
  obtain ⟨hzero, rfl⟩ := ifReserved_eq_ok.1 h
  rw [hi hzero, joinFields_all w ns hsum]

/-- A legal word is the join of the fields that its format names (R61 to R67), the reserved ones 0 (R71). -/
theorem encode_of_decode {w : Word} {i : Instr} (h : decode w = .ok i) : encode i = w := by
  unfold decode at h
  split at h
  case h_1 heq =>
    refine encode_eq_of_join [1, 1, 26, 4] rfl h fun hres => ?_
    simp_all [encode, joinFields, opcode_eq heq, fieldAt_one]
  case h_2 heq =>
    refine encode_eq_of_join [1, 1, 26, 4] rfl h fun hres => ?_
    simp_all [encode, joinFields, opcode_eq heq, fieldAt_one]
  case h_3 heq =>
    refine encode_eq_of_join [6, 22, 4] rfl h fun hres => ?_
    simp_all [encode, joinFields, opcode_eq heq]
  case h_4 heq =>
    refine encode_eq_of_join [24, 4, 4] rfl h fun hres => ?_
    simp_all [encode, joinFields, opcode_eq heq]
  case h_5 heq =>
    split at h
    · refine encode_eq_of_join [24, 1, 3, 4] rfl h fun hres => ?_
      simp_all [encode, joinFields, opcode_eq heq, fieldAt_one, bitOfChain]
    · refine encode_eq_of_join [6, 18, 1, 3, 4] rfl h fun hres => ?_
      simp_all [encode, joinFields, opcode_eq heq, fieldAt_one, bitOfChain]
  case h_6 heq =>
    refine encode_eq_of_join [24, 1, 3, 4] rfl h fun hres => ?_
    simp_all [encode, joinFields, opcode_eq heq, fieldAt_one, bitOfChain_chainOfBit]
  case h_7 heq =>
    refine encode_eq_of_join [24, 1, 3, 4] rfl h fun hres => ?_
    simp_all [encode, joinFields, opcode_eq heq, fieldAt_one, bitOfChain_chainOfBit]
  case h_8 heq =>
    refine encode_eq_of_join [3, 1, 1, 3, 16, 4, 4] rfl h fun hres => ?_
    simp_all [encode, joinFields, opcode_eq heq, fieldAt_one, bitsOfLine_lineOfBits]
  case h_9 heq =>
    refine encode_eq_of_join [4, 24, 4] rfl h fun hres => ?_
    simp_all [encode, joinFields, opcode_eq heq]
  case h_10 => cases h

end Sys2Proof.Machine

open Sys2Proof Sys2Proof.Machine

/-- Settles O1: each field of the word is the operand put there, or 0. -/
theorem encodedCommandsDecodeBack : Obligations.EncodedCommandsDecodeBack := decode_encode

/-- Settles O2: the word is the join of its fields, and each is an operand or a fixed value of the format. -/
theorem legalWordsAreTheirCommandsWords : Obligations.LegalWordsAreTheirCommandsWords := fun _ _ => encode_of_decode
end

section
/-! PROOF. What a step of a command can do, and what it leaves as it was, however it ends (R146, R149). -/

namespace Sys2Proof.Machine

/-- The state in which a piece of a command ends, however it ends (R141). -/
def Exit.state : Exit → State
  | .done s => s
  | .raised _ s => s
  | .faulted s => s

@[simp] theorem Exit.state_done (s : State) : (Exit.done s).state = s := rfl

@[simp] theorem Exit.state_raised (e : Err) (s : State) : (Exit.raised e s).state = s := rfl

@[simp] theorem Exit.state_faulted (s : State) : (Exit.faulted s).state = s := rfl

/-- Every state a set can end in (R28, R149). -/
theorem runOp_set_ends {I : State → Prop} (l : Line) (v : Bool) (s : State) (hfault : I (s.recordFault .unconfigured))
    (hset : ∀ u e, s.configured = true → I ((driveLine l (levelOf u) s.afterGpio).emit e)) :
    I (runOp (.set l v) s).state := by
  simp only [runOp, gpioSet]
  split
  · exact hfault
  · next hc =>
    have hc : s.configured = true := by simpa using hc
    split
    · exact hset v _ hc
    · exact hset _ _ hc

theorem runOp_hold_ends {I : State → Prop} (m : Nat) (s : State) (hirq : ∀ e, I (s.afterIrq.emit e)) :
    I (runOp (.hold m) s).state := by
  simp only [runOp, hold]
  split <;> exact hirq _

theorem runOp_abort_ends {I : State → Prop} (s : State) (hirq : ∀ e, I (s.afterIrq.emit e)) :
    I (runOp .abort s).state := by
  simp only [runOp, abortPoint]
  split <;> exact hirq _

/-- Every state a step of a command can end in: a draw at an abort point or a hold, the fault, a line at a level, or all
lines at levels, none of them undriven if that leaves the lines configured (R27 to R29, R84, R149, R150). -/
theorem runOp_ends {I : State → Prop} (o : Op) (s : State) (hirq : ∀ e, I (s.afterIrq.emit e))
    (hfault : I (s.recordFault .unconfigured))
    (hset : ∀ l u e, s.configured = true → I ((driveLine l (levelOf u) s.afterGpio).emit e))
    (hall : ∀ f k e, (k = true → ∀ l, f l ≠ .z) → I (State.emit { driveAll f s.afterGpio with configured := k } e)) :
    I (runOp o s).state := by
  cases o with
  | configure v =>
    simp only [runOp, gpioConfigure]
    split
    · exact hall _ true _ fun _ _ => levelOf_ne_z v
    · exact hall _ false _ fun h => nomatch h
  | set l v => exact runOp_set_ends l v s hfault (hset l)
  | release =>
    simp only [runOp, gpioRelease]
    split <;> exact hall _ false _ fun h => nomatch h
  | hold m => exact runOp_hold_ends m s hirq
  | abort => exact runOp_abort_ends s hirq

/-- Only a set faults, and the fault is recorded in the state it started from (R149). -/
theorem runOp_faulted {o : Op} {s t : State} (h : runOp o s = .faulted t) : t = s.recordFault .unconfigured := by
  cases o with
  | set l v =>
    simp only [runOp, gpioSet] at h
    split_ifs at h
    exact (Exit.faulted.inj h).symm
  | configure v => simp only [runOp, gpioConfigure] at h; split_ifs at h
  | release => simp only [runOp, gpioRelease] at h; split_ifs at h
  | hold m => simp only [runOp, hold] at h; split_ifs at h
  | abort => simp only [runOp, abortPoint] at h; split_ifs at h

theorem State.chain_emit_configured (s : State) (k : Bool) (e : TraceEvent) (c : ChainId) :
    (State.emit { s with configured := k } e).chain c = s.chain c := by
  cases c <;> rfl

theorem State.line_emit_configured (s : State) (k : Bool) (e : TraceEvent) (l : Line) :
    (State.emit { s with configured := k } e).line l = s.line l := by
  rw [State.line, State.chain_emit_configured, State.line]

/-- A release leaves every line undriven (R29). -/
theorem releaseLines_line (s : State) (l : Line) : (releaseLines s).line l = .z := by
  rw [releaseLines, State.line_emit_configured, driveAll_line]

/-- What every step of a program keeps, the program keeps, however it ends. -/
theorem runProg_keeps {I : State → Prop} (p : Prog) (h : ∀ o ∈ opsOf p, ∀ s, I s → I (runOp o s).state) :
    ∀ s, I s → I (runProg p s).state := by
  induction p with
  | skip => exact fun _ hs => hs
  | op o => exact h o (by simp [opsOf])
  | seq a b iha ihb =>
    intro s hs
    have ha := iha (fun o ho => h o (by simp [opsOf, ho])) s hs
    rw [runProg]
    cases hr : runProg a s with
    | done t => rw [hr] at ha; exact ihb (fun o ho => h o (by simp [opsOf, ho])) t ha
    | raised e t => rw [hr] at ha; exact ha
    | faulted t => rw [hr] at ha; exact ha
  | guarded a b iha =>
    intro s hs
    have ha := iha (fun o ho => h o (by simp [opsOf, ho])) s hs
    have hb := h b (by simp [opsOf])
    rw [runProg]
    cases hr : runProg a s with
    | done t => rw [hr] at ha; exact hb t ha
    | raised e t =>
      rw [hr] at ha
      have hbt := hb t ha
      cases hrb : runOp b t <;> rw [hrb] at hbt <;> simpa [hrb] using hbt
    | faulted t => rw [hr] at ha; exact ha

/-- What a command leaves of a state: the board, the marks of refusal and the host's side as they were, and of the trace and
the faults all that was there. -/
structure CommandFrame (s t : State) : Prop where
  cfg : t.cfg = s.cfg
  refused : t.refused = s.refused
  host : t.host = s.host
  reads : t.reads = s.reads
  trace : s.trace <+: t.trace
  faults : s.faults ⊆ t.faults

theorem CommandFrame.refl (s : State) : CommandFrame s s :=
  ⟨rfl, rfl, rfl, rfl, ⟨[], List.append_nil _⟩, List.Subset.refl _⟩

theorem CommandFrame.trans {s t u : State} (h : CommandFrame s t) (h' : CommandFrame t u) : CommandFrame s u :=
  ⟨h'.cfg.trans h.cfg, h'.refused.trans h.refused, h'.host.trans h.host, h'.reads.trans h.reads, h.trace.trans h'.trace,
    List.Subset.trans h.faults h'.faults⟩

theorem commandFrame_endCommand (s : State) (e : Option Err) : CommandFrame s (s.endCommand e) :=
  ⟨rfl, rfl, rfl, rfl, ⟨_, rfl⟩, List.Subset.refl _⟩

/-- A fault is added to those there (R149). -/
theorem subset_recordFault_faults (s : State) (f : Fault) : s.faults ⊆ (s.recordFault f).faults := by
  rw [State.recordFault_faults]
  split
  · exact List.Subset.refl _
  · exact List.subset_append_left _ _

theorem commandFrame_recordFault (s : State) (f : Fault) : CommandFrame s (s.recordFault f) :=
  ⟨rfl, rfl, rfl, rfl, ⟨_, rfl⟩, subset_recordFault_faults s f⟩

theorem commandFrame_runOp (o : Op) (s : State) : CommandFrame s (runOp o s).state := by
  refine runOp_ends o s (fun e => ?_) (commandFrame_recordFault s _) (fun l u e _ => ?_) (fun f k e _ => ?_) <;>
    constructor <;> simp

theorem commandFrame_runProg (p : Prog) (s : State) : CommandFrame s (runProg p s).state :=
  runProg_keeps p (fun o _ t ht => ht.trans (commandFrame_runOp o t)) s (.refl s)

theorem runOp_result (o : Op) (s : State) : (runOp o s).state.result = s.result := by
  refine runOp_ends (I := fun t => t.result = s.result) o s (fun e => ?_) rfl (fun l u e _ => ?_) (fun f k e _ => ?_) <;> simp

theorem runOp_busy (o : Op) (s : State) : (runOp o s).state.busy = s.busy := by
  refine runOp_ends (I := fun t => t.busy = s.busy) o s (fun e => ?_) rfl (fun l u e _ => ?_) (fun f k e _ => ?_) <;> simp

end Sys2Proof.Machine
end

section
/-! PROOF. The two readings of a command agree: whole, and one step of the sequencer at a time (R22, R33, R152). -/

namespace Sys2Proof.Machine

/-! ### No step of a command reads `SEQ` -/

/-- The state with the sequencer elsewhere. -/
def State.withSeq (s : State) (q : SeqState) : State := { s with seq := q }

/-- The same end, with the sequencer elsewhere; a fault leaves it idle. -/
def Exit.withSeq (q : SeqState) : Exit → Exit
  | .done s => .done (s.withSeq q)
  | .raised e s => .raised e (s.withSeq q)
  | .faulted s => .faulted s

theorem shift_withSeq (c : ChainId) (s : State) (q : SeqState) : shift c (s.withSeq q) = (shift c s).withSeq q := by
  have hc : (s.withSeq q).chain c = s.chain c := by cases c <;> rfl
  unfold shift
  rw [hc]
  split <;> cases c <;> rfl

theorem driveLine_withSeq (l : Line) (v : Level) (s : State) (q : SeqState) :
    driveLine l v (s.withSeq q) = (driveLine l v s).withSeq q := by
  obtain ⟨c, f⟩ := l
  have hline : (s.withSeq q).line ⟨c, f⟩ = s.line ⟨c, f⟩ := by cases c <;> rfl
  have hset : (s.withSeq q).setLine ⟨c, f⟩ v = (s.setLine ⟨c, f⟩ v).withSeq q := by cases c <;> rfl
  rw [driveLine, driveLine, hline, hset]
  unfold chainEvent
  split_ifs
  · cases c <;> rfl
  · rfl
  · exact shift_withSeq c _ q
  · cases c <;> rfl
  · rfl

theorem driveAll_withSeq (f : Line → Level) (s : State) (q : SeqState) :
    driveAll f (s.withSeq q) = (driveAll f s).withSeq q := by
  simp only [driveAll_eq, driveChain, driveLine_withSeq]

theorem runOp_withSeq (o : Op) (s : State) (q : SeqState) : runOp o (s.withSeq q) = (runOp o s).withSeq q := by
  have hirq : (s.withSeq q).afterIrq = s.afterIrq.withSeq q := rfl
  have hgpio : (s.withSeq q).afterGpio = s.afterGpio.withSeq q := rfl
  have hirqNow : (s.withSeq q).irqNow = s.irqNow := rfl
  have hgpioNow : (s.withSeq q).gpioNow = s.gpioNow := rfl
  have hconf : (s.withSeq q).configured = s.configured := rfl
  have hall : ∀ f k e, State.emit { driveAll f (s.afterGpio.withSeq q) with configured := k } e =
      (State.emit { driveAll f s.afterGpio with configured := k } e).withSeq q := by
    intro f k e
    rw [driveAll_withSeq]
    generalize driveAll f s.afterGpio = u
    rfl
  cases o with
  | configure v => simp only [runOp, gpioConfigure, hgpio, hgpioNow, hall]; split <;> rfl
  | set l v => simp only [runOp, gpioSet, hconf, hgpio, hgpioNow, driveLine_withSeq]; split_ifs <;> rfl
  | release => simp only [runOp, gpioRelease, releaseLines, hgpio, hgpioNow, hall]; split <;> rfl
  | hold m => simp only [runOp, hold, hirq, hirqNow]; split <;> rfl
  | abort => simp only [runOp, abortPoint, hirq, hirqNow]; split <;> rfl

/-! ### Turns of the controller -/

/-- Some number of turns of the controller lead from one state to the other. -/
def Ticks (s t : State) : Prop := ∃ n, t = tick^[n] s

theorem Ticks.refl (s : State) : Ticks s s := ⟨0, rfl⟩

theorem Ticks.trans {s t u : State} (h : Ticks s t) (h' : Ticks t u) : Ticks s u := by
  obtain ⟨m, rfl⟩ := h
  obtain ⟨n, rfl⟩ := h'
  exact ⟨n + m, (Function.iterate_add_apply tick n m s).symm⟩

theorem Ticks.one (s : State) : Ticks s (tick s) := ⟨1, rfl⟩

/-- What each turn keeps, any number of them keeps. -/
theorem Ticks.keeps {I : State → Prop} {s t : State} (h : Ticks s t) (htick : ∀ u, I u → I (tick u)) (hs : I s) : I t := by
  obtain ⟨n, rfl⟩ := h
  induction n with
  | zero => exact hs
  | succ n ih => rw [Function.iterate_succ_apply']; exact htick _ ih

/-- An end that carries a pending error on, if it is a success (R153). -/
def Exit.carrying (pending : Option Err) : Exit → Exit
  | .done s =>
    match pending with
    | none => .done s
    | some e => .raised e s
  | .raised e s => .raised e s
  | .faulted s => .faulted s

@[simp] theorem Exit.carrying_none (x : Exit) : x.carrying none = x := by
  cases x <;> rfl

/-- Where the sequencer goes from the end of a piece of a command: on at the index `next`, or with an error to the finally step
`outer` around the piece. -/
def resume (w : Word) (steps : List Step) (next : Nat) (outer : Option Nat) : Exit → State
  | .done s => goOn w steps next none s
  | .raised e s => carry w steps outer e s
  | .faulted s => s

theorem resume_withSeq (w : Word) (steps : List Step) (next : Nat) (outer : Option Nat) (x : Exit) (q : SeqState)
    (e : Option Err) : resume w steps next outer ((x.withSeq q).carrying e) = resume w steps next outer (x.carrying e) := by
  cases x <;> cases e <;> cases outer <;> rfl

/-- A step runs and the sequencer goes on from its end. -/
theorem runStep_eq_resume {w : Word} {steps : List Step} {p : Nat} {st : Step} (hst : steps[p]? = some st)
    (pending : Option Err) (s : State) :
    runStep w steps p pending s = resume w steps (p + 1) st.onError ((runOp st.op s).carrying pending) := by
  rw [runStep, hst]
  cases hr : runOp st.op s <;> cases pending <;> simp [hr, resume, Exit.carrying]

/-- One turn of the controller runs one step of the list of its command. -/
theorem ticks_step {w : Word} {i : Instr} {s : State} {steps : List Step} {p : Nat} {st : Step} (hdec : decode w = .ok i)
    (hsteps : steps = stepList (progOf s.cfg i) 0 none) (hst : steps[p]? = some st) (pending : Option Err) :
    Ticks (goOn w steps p pending s) (resume w steps (p + 1) st.onError ((runOp st.op s).carrying pending)) := by
  obtain ⟨hp, -⟩ := List.getElem?_eq_some_iff.1 hst
  have hgo : goOn w steps p pending s = s.withSeq (.running w (p + 1) pending) := if_pos hp
  have htick : tick (s.withSeq (.running w (p + 1) pending)) =
      runStep w steps p pending (s.withSeq (.running w (p + 1) pending)) := by
    simp [tick, State.withSeq, hdec, hsteps]
  rw [hgo, ← resume_withSeq w steps (p + 1) st.onError _ (.running w (p + 1) pending), ← runOp_withSeq,
    ← runStep_eq_resume hst, ← htick]
  exact Ticks.one _

/-- A piece of a step list lies in it at an index. -/
def Placed (steps xs : List Step) (base : Nat) : Prop := ∃ pre post, steps = pre ++ (xs ++ post) ∧ pre.length = base

theorem Placed.append {steps xs ys : List Step} {base : Nat} (h : Placed steps (xs ++ ys) base) :
    Placed steps xs base ∧ Placed steps ys (base + xs.length) := by
  obtain ⟨pre, post, rfl, rfl⟩ := h
  exact ⟨⟨pre, ys ++ post, by simp, rfl⟩, pre ++ xs, post, by simp, by simp⟩

theorem Placed.getElem? {steps : List Step} {st : Step} {base : Nat} (h : Placed steps [st] base) :
    steps[base]? = some st := by
  obtain ⟨pre, post, rfl, rfl⟩ := h
  simp

theorem runProg_guarded_done {a : Prog} {b : Op} {s t : State} (h : runProg a s = .done t) :
    runProg (.guarded a b) s = runOp b t := by
  simp only [runProg, h]

/-- `try { a } finally { b }` where `a` ends in an error: the end of `b` carries it on (R152, R153). -/
theorem runProg_guarded_raised {a : Prog} {b : Op} {e : Err} {s t : State} (h : runProg a s = .raised e t) :
    runProg (.guarded a b) s = (runOp b t).carrying (some e) := by
  simp only [runProg, h]
  cases runOp b t <;> rfl

/-- From where a piece of a command's pseudocode begins, the controller comes to where the whole piece ends. -/
theorem ticks_runProg {w : Word} {i : Instr} {g : Board} {steps : List Step} (hdec : decode w = .ok i)
    (hsteps : steps = stepList (progOf g i) 0 none) (p : Prog) :
    ∀ (base : Nat) (outer : Option Nat) (s : State), s.cfg = g → Placed steps (stepList p base outer) base →
      Ticks (goOn w steps base none s) (resume w steps (base + stepCount p) outer (runProg p s)) := by
  have hcfg : ∀ (a : Prog) (s : State), s.cfg = g → (runProg a s).state.cfg = g :=
    fun a s hs => (commandFrame_runProg a s).cfg.trans hs
  induction p with
  | skip => exact fun base outer s _ _ => Ticks.refl _
  | op o =>
    intro base outer s hs hplaced
    have h := ticks_step hdec (hs ▸ hsteps) hplaced.getElem? none
    rwa [Exit.carrying_none] at h
  | seq a b iha ihb =>
    intro base outer s hs hplaced
    obtain ⟨hpa, hpb⟩ := hplaced.append
    rw [stepList_length] at hpb
    have ha := iha base outer s hs hpa
    have hc := hcfg a s hs
    rw [stepCount, ← Nat.add_assoc, runProg]
    cases hr : runProg a s with
    | done t => rw [hr] at ha hc; exact ha.trans (ihb _ outer t hc hpb)
    | raised e t => rw [hr] at ha; exact ha
    | faulted t => rw [hr] at ha; exact ha
  | guarded a b iha =>
    intro base outer s hs hplaced
    obtain ⟨hpa, hpb⟩ := hplaced.append
    rw [stepList_length] at hpb
    have ha := iha base _ s hs hpa
    have hc := hcfg a s hs
    have hb : ∀ (t : State) (e : Option Err), t.cfg = g → Ticks (goOn w steps (base + stepCount a) e t)
        (resume w steps (base + stepCount a + 1) outer ((runOp b t).carrying e)) :=
      fun t e ht => ticks_step hdec (ht ▸ hsteps) hpb.getElem? e
    rw [stepCount, ← Nat.add_assoc]
    cases hr : runProg a s with
    | done t =>
      rw [hr] at ha hc
      rw [runProg_guarded_done hr, ← Exit.carrying_none (runOp b t)]
      exact ha.trans (hb t none hc)
    | raised e t =>
      rw [hr] at ha hc
      rw [runProg_guarded_raised hr]
      exact ha.trans (hb t (some e) hc)
    | faulted t => rw [hr] at ha; rw [runProg, hr]; exact ha

/-- At the end of the step list the command ends. -/
theorem resume_end (w : Word) (steps : List Step) (x : Exit) : resume w steps steps.length none x = finish x := by
  cases x with
  | done s => exact if_neg (Nat.lt_irrefl _)
  | raised e s => rfl
  | faulted s => rfl

/-- The controller, from the decode of a legal command on, comes to the state that the whole run of its plan gives. -/
theorem ticks_runPlan {w : Word} {i : Instr} {s : State} (hdec : decode w = .ok i) (hseq : s.seq = .running w 0 none) :
    Ticks s (runPlan (planOf i s) s) := by
  have htick : tick s = startCommand w s := by rw [tick, hseq]
  have hone := Ticks.one s
  rw [htick] at hone
  cases hplan : planOf i s with
  | fault => simp only [startCommand, hdec, hplan] at hone; exact hone
  | raise e => simp only [startCommand, hdec, hplan] at hone; exact hone
  | go t p =>
    simp only [startCommand, hdec, hplan] at hone
    obtain ⟨rfl, ht⟩ := planOf_go hplan
    have hcfg : t.cfg = s.cfg := by rw [ht]
    have hrun := ticks_runProg hdec rfl (progOf s.cfg i) 0 none t hcfg ⟨[], [], by simp, rfl⟩
    rw [Nat.zero_add, ← stepList_length (progOf s.cfg i) 0 none, resume_end] at hrun
    exact hone.trans hrun

/-- A command issued and run one step at a time comes to the state that the whole command gives (R22, R33, R139). -/
theorem runCommand_ticks (w : Word) (s : State) : ∃ t, runCommand w s = .next t ∧ Ticks (s.issue w) t := by
  cases hdec : decode w with
  | error x =>
    refine ⟨_, runCommand_of_illegal hdec s, ?_⟩
    have htick : tick (s.issue w) = (s.issue w).endCommand (some .illegalCommand) := by
      simp [tick, startCommand, hdec]
    exact htick ▸ Ticks.one _
  | ok i =>
    exact ⟨_, by rw [runCommand, hdec]; exact exec_eq_runPlan i _, ticks_runPlan hdec rfl⟩

end Sys2Proof.Machine

open Sys2Proof Sys2Proof.Machine

/-- Settles O7: by induction on the pseudocode, the steps of a piece lead the sequencer to where the whole piece ends. -/
theorem stepByStepRunEndsAsExec : Obligations.StepByStepRunEndsAsExec := by
  intro s w _
  obtain ⟨t, hrun, n, rfl⟩ := runCommand_ticks w s
  exact ⟨n, hrun⟩
end

section
/-! PROOF. Every step of the machine, and the invariant (R22, R26, R31, R34 to R36). -/

namespace Sys2Proof.Machine

/-! ### What a step of the machine can do -/

theorem ifReady_eq_next {s t : State} {k : Host.Outcome State Fault Refusal} (h : ifReady s k = .next t) : k = .next t := by
  unfold ifReady at h
  split_ifs at h
  exact h

/-- What every turn of the controller, every issue, refusal and read and the reset event keep, a step of the machine keeps. -/
theorem step_keeps {I : State → Prop} {s t : State} (h : step s = .next t) (hs : ∀ es, I { s with host := es })
    (htick : ∀ u, I u → I (tick u)) (hissue : ∀ u w, I u → I (u.issue w)) (hrefuse : ∀ u r, I u → I (u.refuse r))
    (hread : ∀ u rs, I u → I { u with reads := rs }) (hreset : ∀ u, I u → I (resetEvent u)) : I t := by
  have hself : I s := hs s.host
  have hrun : ∀ w u, I u → runCommand w u = .next t → I t := by
    intro w u hu hr
    obtain ⟨t', ht', hticks⟩ := runCommand_ticks w u
    obtain rfl : t' = t := Host.Outcome.next.inj (ht'.symm.trans hr)
    exact hticks.keeps htick (hissue u w hu)
  have hnext : ∀ {u}, I u → Host.Outcome.next u = (Host.Outcome.next t : Host.Outcome State Fault Refusal) → I t := by
    rintro u hu hut
    cases hut
    exact hu
  have haction : I s.nextAction.2 := by
    unfold State.nextAction
    split
    · exact hself
    · exact hs _
  unfold step machineStep at h
  generalize s.nextAction.2 = u at h haction
  split at h
  case isFalse =>
    unfold refuseBoard at h
    split_ifs at h
    exact hnext (hrefuse _ _ hself) h
  case isTrue =>
    cases he : s.nextAction.1 with
    | command w =>
      rw [he, hostAction] at h
      exact hrun w u haction (ifReady_eq_next h)
    | call c =>
      rw [he, hostAction] at h
      have h' := ifReady_eq_next h
      split at h'
      · exact hrun _ u haction h'
      · exact hnext (hrefuse _ _ haction) h'
    | write reg v =>
      rw [he, hostAction] at h
      unfold writeRegister at h
      split at h
      · exact hnext (hissue _ _ haction) (ifReady_eq_next h)
      · exact hnext haction h
      · exact hnext haction h
      · exact hnext (hrefuse _ _ haction) h
    | read reg =>
      rw [he, hostAction] at h
      unfold readRegister at h
      split at h
      · exact hnext (hread _ _ haction) h
      · exact hnext (hrefuse _ _ haction) h
    | tick =>
      rw [he, hostAction] at h
      split_ifs at h
      exact hnext (htick _ haction) h
    | reset =>
      rw [he, hostAction] at h
      exact hnext (hreset _ haction) h

/-! ### Turns of the controller -/

/-- What begins a plan can write: `RESULT` alone, with four bits (R90). -/
theorem planOf_go_result {i : Instr} {s t : State} {p : Prog} (h : planOf i s = .go t p) :
    t = s ∨ ∃ v code, i = .encodeDigit v ∧ t = s.writeResult code := by
  cases i with
  | encodeDigit v =>
    simp only [planOf, planEncodeDigit] at h
    split at h
    · cases h
    · next code _ => exact .inr ⟨v, code, rfl, (Plan.go.inj h).1.symm⟩
  | init cl cd => exact .inl (Plan.go.inj h).1.symm
  | setDigits g =>
    simp only [planOf, planSetDigits, ifConfigured] at h
    split_ifs at h
    split at h
    · cases h
    · exact .inl (Plan.go.inj h).1.symm
  | _ =>
    simp only [planOf, planShutdown, planSetLeds, planLoad, planEnable, planDisable, planPulse, ifConfigured] at h
    split_ifs at h
    exact .inl (Plan.go.inj h).1.symm

/-- What a turn of the controller can do: nothing while it is idle; else, from a state that meets `J`, it does a step of the
command, and then goes on at a position that the command has, ends the command, or faults (R22, R146, R149). -/
theorem tick_keeps {I J : State → Prop} {s : State} (hidle : s.seq = .idle → I s) (hJ : s.seq ≠ .idle → J s)
    (hresult : ∀ code, J s → J (s.writeResult code)) (hop : ∀ o u, J u → J (runOp o u).state)
    (hgo : ∀ w i p pending u, decode w = .ok i → p < stepCount (progOf s.cfg i) → u.cfg = s.cfg → J u →
      I (u.withSeq (.running w (p + 1) pending)))
    (hend : ∀ u e, J u → I (u.endCommand e)) (hfault : ∀ u, J u → I (u.recordFault .unconfigured)) : I (tick s) := by
  have hgoOn : ∀ w i p pending u, decode w = .ok i → u.cfg = s.cfg → J u →
      I (goOn w (stepList (progOf s.cfg i) 0 none) p pending u) := by
    intro w i p pending u hdec hcfg hu
    unfold goOn
    split_ifs with hp
    · exact hgo w i p pending u hdec (by simpa using hp) hcfg hu
    · exact hend u pending hu
  have hcarry : ∀ w i onError e u, decode w = .ok i → u.cfg = s.cfg → J u →
      I (carry w (stepList (progOf s.cfg i) 0 none) onError e u) := by
    rintro w i (_ | p) e u hdec hcfg hu
    · exact hend u _ hu
    · exact hgoOn w i p _ u hdec hcfg hu
  unfold tick
  split
  · next hq => exact hidle hq
  · next w _ hq =>
    have hs := hJ (by simp [hq])
    unfold startCommand
    split
    · exact hend s _ hs
    · next i hdec =>
      cases hplan : planOf i s with
      | fault => exact hfault s hs
      | raise e => exact hend s _ hs
      | go t p =>
        obtain ⟨rfl, -⟩ := planOf_go hplan
        obtain rfl | ⟨_, code, -, rfl⟩ := planOf_go_result hplan
        · exact hgoOn w i 0 none t hdec rfl hs
        · exact hgoOn w i 0 none _ hdec rfl (hresult code hs)
  · next w p pending hq =>
    have hs := hJ (by simp [hq])
    split
    · exact hend s _ hs
    · next i hdec =>
      unfold runStep
      split
      · exact hend s _ hs
      · next st _ =>
        have ho := hop st.op s hs
        have hcfg := (commandFrame_runOp st.op s).cfg
        cases hr : runOp st.op s with
        | done t =>
          rw [hr] at ho hcfg
          cases pending with
          | none => exact hgoOn w i (p + 1) none t hdec hcfg ho
          | some e => exact hcarry w i st.onError e t hdec hcfg ho
        | raised e t =>
          rw [hr] at ho hcfg
          exact hcarry w i st.onError e t hdec hcfg ho
        | faulted t => exact runOp_faulted hr ▸ hfault s hs

theorem commandFrame_tick (s : State) : CommandFrame s (tick s) := by
  have hseq : ∀ (u : State) q, CommandFrame s u → CommandFrame s (u.withSeq q) :=
    fun u q h => ⟨h.cfg, h.refused, h.host, h.reads, h.trace, h.faults⟩
  exact tick_keeps (J := CommandFrame s) (fun _ => .refl s) (fun _ => .refl s)
    (fun code h => ⟨h.cfg, h.refused, h.host, h.reads, h.trace, h.faults⟩)
    (fun o u h => h.trans (commandFrame_runOp o u)) (fun w i p pending u _ _ _ h => hseq u _ h)
    (fun u e h => h.trans (commandFrame_endCommand u e)) (fun u h => h.trans (commandFrame_recordFault u _))

/-! ### The chains keep their depth -/

/-- Both registers of a chain have the chain's number of stages (R31). -/
def State.fits (s : State) (c : ChainId) : Prop :=
  (s.chain c).sr.length = s.cfg.depth c ∧ (s.chain c).st.length = s.cfg.depth c

theorem State.stagesFit_iff (s : State) : s.stagesFit = true ↔ ∀ c, s.fits c := by
  simp only [State.stagesFit, Bool.and_eq_true, decide_eq_true_eq]
  constructor
  · rintro ⟨⟨⟨hls, hlt⟩, hds⟩, hdt⟩ (_ | _)
    · exact ⟨hls, hlt⟩
    · exact ⟨hds, hdt⟩
  · intro h
    exact ⟨⟨⟨(h .led).1, (h .led).2⟩, (h .dig).1⟩, (h .dig).2⟩

@[simp] theorem freeStages_length (n d : Nat) : (Config.freeStages n d).length = d := by
  simp [Config.freeStages]

/-- A chain's reaction to a line event leaves its registers at their depth: they are redrawn, shifted or copied whole (R37, R38,
R41). -/
theorem chainEvent_fits {c : ChainId} {s : State} (h : s.fits c) (f : LineFn) (old new : Level) :
    (chainEvent ⟨c, f⟩ old new s).fits c := by
  obtain ⟨hsr, hst⟩ := h
  have hshiftIn : ∀ b, (shiftIn c b s).fits c := by
    intro b
    simp [State.fits, shiftIn, hsr, hst]
  unfold chainEvent
  split_ifs
  · cases c <;> simp [State.fits, undrivenHavoc, State.setChain]
  · exact ⟨hsr, hst⟩
  · unfold shift
    split
    · exact hshiftIn _
    · exact hshiftIn _
    · cases c <;> exact hshiftIn _
  · simp [State.fits, latch, hsr]
  · exact ⟨hsr, hst⟩

theorem driveLine_fits {c : ChainId} {s : State} (h : s.fits c) (l : Line) (v : Level) : (driveLine l v s).fits c := by
  by_cases hc : c = l.chain
  · subst hc
    refine chainEvent_fits ?_ l.fn _ v
    simpa [State.fits, State.setLine] using h
  · rw [State.fits, driveLine_chain_other l v s c hc, driveLine_cfg]
    exact h

theorem driveAll_fits {c : ChainId} {s : State} (h : s.fits c) (f : Line → Level) : (driveAll f s).fits c := by
  rw [driveAll_eq, driveChain, driveChain]
  iterate 8 refine driveLine_fits ?_ _ _
  exact h

/-! ### The invariant -/

theorem linesDriven_iff {l : LineLevels} : linesDriven l = true ↔ ∀ f, levelAt l f ≠ .z := by
  simp only [linesDriven, Bool.and_eq_true, decide_eq_true_eq]
  constructor
  · rintro ⟨⟨⟨hser, hclk⟩, hlat⟩, hoe⟩ (_ | _ | _ | _)
    · exact hser
    · exact hclk
    · exact hlat
    · exact hoe
  · exact fun h => ⟨⟨⟨h .ser, h .clk⟩, h .lat⟩, h .oe⟩

/-- What the invariant says of a state beside its sequencer (R26, R31, R35, R36). -/
structure Sound (s : State) : Prop where
  fits : ∀ c, s.fits c
  driven : s.configured = true → ∀ l, s.line l ≠ .z
  result : s.result.toNat < 16
  faults : s.faults.Nodup
  refused : s.refused.Nodup

theorem State.inv_iff (s : State) : s.Inv ↔ Sound s ∧ s.seqLegal = true ∧ s.busyFits = true := by
  have hdriven : (∀ l, s.line l ≠ .z) ↔ linesDriven s.led.lines = true ∧ linesDriven s.dig.lines = true := by
    rw [linesDriven_iff, linesDriven_iff]
    exact ⟨fun h => ⟨fun f => h ⟨.led, f⟩, fun f => h ⟨.dig, f⟩⟩, fun h l => by
      obtain ⟨_ | _, f⟩ := l
      · exact h.1 f
      · exact h.2 f⟩
  rw [State.Inv, State.stagesFit_iff, ← hdriven]
  exact ⟨fun ⟨hf, hd, hr, hfa, hre, hseq⟩ => ⟨⟨hf, hd, hr, hfa, hre⟩, hseq⟩,
    fun ⟨h, hseq⟩ => ⟨h.fits, h.driven, h.result, h.faults, h.refused, hseq⟩⟩

theorem nodup_add {α : Type} [DecidableEq α] {a : α} {as : List α} (h : as.Nodup) :
    (if a ∈ as then as else as ++ [a]).Nodup := by
  split_ifs with ha
  · exact h
  · exact by simpa [List.concat_eq_append] using h.concat ha

theorem sound_recordFault {s : State} (h : Sound s) (f : Fault) : Sound (s.recordFault f) :=
  ⟨h.fits, h.driven, h.result, nodup_add h.faults, h.refused⟩

theorem sound_refuse {s : State} (h : Sound s) (r : RefusedInput) : Sound (s.refuse r) :=
  ⟨h.fits, h.driven, h.result, h.faults, nodup_add h.refused⟩

theorem sound_writeResult {s : State} (h : Sound s) (code : BitVec 4) : Sound (s.writeResult code) :=
  ⟨h.fits, h.driven, by simp; omega, h.faults, h.refused⟩

/-- All lines at levels, and the lines configured or not (R27, R29). -/
theorem sound_driveAll {s : State} (h : Sound s) (f : Line → Level) (k : Bool) (e : TraceEvent)
    (hk : k = true → ∀ l, f l ≠ .z) : Sound (State.emit { driveAll f s with configured := k } e) := by
  have hfits := fun c => driveAll_fits (h.fits c) f
  have hline := driveAll_line f s
  have hresult := driveAll_result f s
  have hfaults := driveAll_faults f s
  have hrefused := driveAll_refused f s
  generalize driveAll f s = u at *
  refine ⟨fun c => ?_, fun hc l => ?_, hresult ▸ h.result, hfaults ▸ h.faults, hrefused ▸ h.refused⟩
  · rw [State.fits, State.chain_emit_configured]
    exact hfits c
  · rw [State.line_emit_configured, hline]
    exact hk hc l

theorem sound_driveLine {s : State} (h : Sound s) (hc : s.configured = true) (l : Line) (b : Bool) :
    Sound (driveLine l (levelOf b) s) := by
  refine ⟨fun c => driveLine_fits (h.fits c) l _, fun _ m => ?_, by simpa using h.result, by simpa using h.faults,
    by simpa using h.refused⟩
  by_cases hm : m = l
  · rw [hm, driveLine_line_same]
    exact levelOf_ne_z b
  · rw [driveLine_line_other l m _ s hm]
    exact h.driven hc m

theorem sound_emit {s : State} (h : Sound s) (e : TraceEvent) : Sound (s.emit e) :=
  ⟨h.fits, h.driven, h.result, h.faults, h.refused⟩

theorem sound_afterGpio {s : State} (h : Sound s) : Sound s.afterGpio :=
  ⟨h.fits, h.driven, h.result, h.faults, h.refused⟩

theorem sound_runOp {s : State} (h : Sound s) (o : Op) : Sound (runOp o s).state :=
  runOp_ends o s (fun _ => ⟨h.fits, h.driven, h.result, h.faults, h.refused⟩) (sound_recordFault h _)
    (fun l u e hc => sound_emit (sound_driveLine (sound_afterGpio h) hc l u) e)
    (fun f k e hk => sound_driveAll (sound_afterGpio h) f k e hk)

/-- A state whose command has ended meets the invariant (R146, R148). -/
theorem inv_endCommand {s : State} (h : Sound s) (e : Option Err) : (s.endCommand e).Inv :=
  (State.inv_iff _).2 ⟨⟨h.fits, h.driven, h.result, h.faults, h.refused⟩, rfl, rfl⟩

/-- So does a state in which a fault was recorded, `BUSY` still 1 (R149). -/
theorem inv_recordFault {s : State} (h : Sound s) (f : Fault) : (s.recordFault f).Inv := by
  refine (State.inv_iff _).2 ⟨sound_recordFault h f, rfl, ?_⟩
  have hf : (s.recordFault f).faults ≠ [] := by
    rw [State.recordFault_faults]
    split_ifs with hm
    · exact List.ne_nil_of_mem hm
    · simp
  simp [State.busyFits, hf, -State.recordFault_faults]

theorem inv_tick {s : State} (h : s.Inv) : (tick s).Inv := by
  have hinv := (State.inv_iff s).1 h
  obtain ⟨hsound, hlegal, hbusy⟩ := hinv
  refine tick_keeps (J := fun u => Sound u ∧ u.busy = true) (fun _ => h) (fun hq => ⟨hsound, ?_⟩)
    (fun code hu => ⟨sound_writeResult hu.1 code, hu.2⟩)
    (fun o u hu => ⟨sound_runOp hu.1 o, (runOp_busy o u).trans hu.2⟩) (fun w i p pending u hdec hp hcfg hu => ?_)
    (fun u e hu => inv_endCommand hu.1 e) (fun u hu => inv_recordFault hu.1 _)
  · simpa [State.busyFits, hq] using hbusy
  · obtain ⟨hu, hub⟩ := hu
    refine (State.inv_iff _).2 ⟨⟨hu.fits, hu.driven, hu.result, hu.faults, hu.refused⟩, ?_, ?_⟩
    · simpa [State.seqLegal, State.withSeq, hdec, hcfg] using hp
    · simp [State.busyFits, State.withSeq, hub]

theorem inv_resetEvent {s : State} (h : s.Inv) : (resetEvent s).Inv := by
  obtain ⟨hsound, -, -⟩ := (State.inv_iff s).1 h
  obtain ⟨x, y, n, hshape⟩ := resetEvent_shape s
  have hfits : ∀ c, (resetEvent s).fits c := by
    intro c
    rw [State.fits, resetEvent_chain, hshape]
    simpa [State.fits] using driveAll_fits (hsound.fits c) (fun _ => .z)
  rw [hshape] at hfits ⊢
  exact (State.inv_iff _).2 ⟨⟨hfits, (nomatch ·), by simp, hsound.faults, hsound.refused⟩, rfl, rfl⟩

theorem inv_issue {s : State} (h : s.Inv) (w : Word) : (s.issue w).Inv := by
  obtain ⟨h, -, -⟩ := (State.inv_iff s).1 h
  exact (State.inv_iff _).2 ⟨⟨h.fits, h.driven, h.result, h.faults, h.refused⟩, rfl, rfl⟩

theorem inv_refuse {s : State} (h : s.Inv) (r : RefusedInput) : (s.refuse r).Inv := by
  obtain ⟨h, hseq⟩ := (State.inv_iff s).1 h
  exact (State.inv_iff _).2 ⟨sound_refuse h r, hseq⟩

@[simp] theorem resetEvent_faults (s : State) : (resetEvent s).faults = s.faults := by
  obtain ⟨x, y, n, h⟩ := resetEvent_shape s
  rw [h]

@[simp] theorem resetEvent_refused (s : State) : (resetEvent s).refused = s.refused := by
  obtain ⟨x, y, n, h⟩ := resetEvent_shape s
  rw [h]

@[simp] theorem resetEvent_cfg (s : State) : (resetEvent s).cfg = s.cfg := by
  obtain ⟨x, y, n, h⟩ := resetEvent_shape s
  rw [h]

/-- What no step takes away from a state: the board, the faults recorded and the refusals marked (R8, R36). -/
structure Persists (s t : State) : Prop where
  cfg : t.cfg = s.cfg
  faults : s.faults ⊆ t.faults
  refused : s.refused ⊆ t.refused

theorem Persists.refuse {s t : State} (h : Persists s t) (r : RefusedInput) : Persists s (t.refuse r) := by
  refine ⟨h.cfg, h.faults, fun x hx => ?_⟩
  rw [State.refuse_refused]
  split_ifs
  · exact h.refused hx
  · exact List.mem_append_left _ (h.refused hx)

theorem persists_step {s t : State} (h : step s = .next t) : Persists s t := by
  refine step_keeps (I := Persists s) h (fun es => ⟨rfl, List.Subset.refl _, List.Subset.refl _⟩) (fun u hu => ?_)
    (fun u w hu => ⟨hu.cfg, hu.faults, hu.refused⟩) (fun u r hu => hu.refuse r)
    (fun u rs hu => ⟨hu.cfg, hu.faults, hu.refused⟩) (fun u hu => ?_)
  · have ht := commandFrame_tick u
    exact ⟨ht.cfg.trans hu.cfg, List.Subset.trans hu.faults ht.faults, ht.refused.symm ▸ hu.refused⟩
  · exact ⟨by simpa using hu.cfg, by simpa using hu.faults, by simpa using hu.refused⟩

end Sys2Proof.Machine

open Sys2Proof Sys2Proof.Machine

/-- Settles O12: a command keeps it turn by turn, by O7's equality of the two readings. -/
theorem everyStepKeepsTheInvariant : Obligations.EveryStepKeepsTheInvariant :=
  fun _ _ hs h => step_keeps (I := State.Inv) h (fun _ => hs) (fun _ => inv_tick) (fun _ w hu => inv_issue hu w)
    (fun _ r hu => inv_refuse hu r) (fun _ _ hu => hu) (fun _ => inv_resetEvent)

/-- Settles O13: no turn of the controller, no action of the host and no reset takes any of them away. -/
theorem boardFaultsAndRefusalsStay : Obligations.BoardFaultsAndRefusalsStay := by
  intro s t h
  obtain ⟨hcfg, hfaults, hrefused⟩ := persists_step h
  exact ⟨hcfg, fun _ hf => hfaults hf, fun _ hr => hrefused hr⟩
end

section
/-! PROOF. What each command leaves as it was (R24, R26, R32, R35). -/

namespace Sys2Proof.Machine

/-! ### The operations of a command -/

/-- The lines an operation of a command may write. -/
def opWrites : Op → Line → Bool
  | .configure _, _ => true
  | .set l _, m => decide (m = l)
  | .release, _ => true
  | .hold _, _ => false
  | .abort, _ => false

theorem mem_opsOf_progLoad {g : Board} {c : ChainId} {bits : List Bool} {o : Op} (h : o ∈ opsOf (progLoad g c bits)) :
    o = .abort ∨ o = .hold g.tPulse ∨ ∃ f v, f ≠ .oe ∧ o = .set ⟨c, f⟩ v := by
  have ho : o = .abort ∨ o ∈ opsOf (loadSeq g.tPulse c bits) := by
    simpa [progLoad, opsOf_block_cons, opsOf_block_nil, opsOf] using h
  rcases ho with rfl | ho
  · exact .inl rfl
  · exact mem_opsOf_loadSeq ho

/-- A load writes its chain's lines other than the enable line (R99). -/
theorem opWrites_progLoad {g : Board} {c : ChainId} {bits : List Bool} {o : Op} {m : Line}
    (h : o ∈ opsOf (progLoad g c bits)) (hw : opWrites o m = true) : m.chain = c ∧ m.fn ≠ .oe := by
  obtain rfl | rfl | ⟨f, v, hf, rfl⟩ := mem_opsOf_progLoad h
  · cases hw
  · cases hw
  · obtain rfl : m = ⟨c, f⟩ := by simpa [opWrites] using hw
    exact ⟨rfl, hf⟩

/-- What an operation of a command writes, the command may write. -/
theorem writesLine_of_opWrites {g : Board} {i : Instr} {o : Op} {m : Line} (h : o ∈ opsOf (progOf g i))
    (hw : opWrites o m = true) : writesLine i m = true := by
  cases i with
  | init cl cd => rfl
  | shutdown cl cd => rfl
  | setLeds _ | setDigits _ | loadLed _ | loadDig _ => simpa [writesLine] using opWrites_progLoad h hw
  | enable c | disable c =>
    simp only [progOf, setEnable, setDisable, opsOf_block_cons, opsOf_block_nil, opsOf, List.mem_append, List.mem_singleton,
      List.append_nil] at h
    obtain rfl | rfl := h
    · cases hw
    · exact hw
  | pulse l r width =>
    simp only [progOf, progPulse, opsOf_block_cons, opsOf_block_nil, opsOf, opsOf_pulseLine, List.mem_append, List.mem_cons,
      List.append_nil, List.not_mem_nil, or_false] at h
    obtain rfl | rfl | rfl | rfl := h
    · cases hw
    · exact hw
    · cases hw
    · exact hw
  | encodeDigit v => cases h

theorem opWrites_eq_false {g : Board} {i : Instr} {o : Op} {m : Line} (h : o ∈ opsOf (progOf g i))
    (hw : writesLine i m = false) : opWrites o m = false :=
  Bool.eq_false_iff.2 fun hm => Bool.eq_false_iff.1 hw (writesLine_of_opWrites h hm)

/-- A command other than `INITIALIZE` and `SHUTDOWN` has a line it does not write. -/
theorem exists_writesLine_eq_false {i : Instr} (hinit : ∀ cl cd, i ≠ .init cl cd) (hshut : ∀ cl cd, i ≠ .shutdown cl cd) :
    ∃ m, writesLine i m = false := by
  cases i with
  | init cl cd => exact absurd rfl (hinit cl cd)
  | shutdown cl cd => exact absurd rfl (hshut cl cd)
  | setLeds _ | setDigits _ | loadLed _ | loadDig _ => exact ⟨⟨.led, .oe⟩, by simp [writesLine]⟩
  | enable c | disable c => exact ⟨⟨c, .ser⟩, by simp [writesLine]⟩
  | pulse l r width =>
    obtain ⟨c, f⟩ := l
    cases f with
    | ser => exact ⟨⟨c, .clk⟩, by simp [writesLine]⟩
    | clk | lat | oe => exact ⟨⟨c, .ser⟩, by simp [writesLine]⟩
  | encodeDigit v => exact ⟨⟨.led, .ser⟩, rfl⟩

/-- A command other than `INITIALIZE` and `SHUTDOWN` neither configures nor releases, which would write all lines (R26). -/
theorem isPlain_of_mem_progOf {g : Board} {i : Instr} {o : Op} (hinit : ∀ cl cd, i ≠ .init cl cd)
    (hshut : ∀ cl cd, i ≠ .shutdown cl cd) (h : o ∈ opsOf (progOf g i)) : isPlain o = true := by
  obtain ⟨m, hm⟩ := exists_writesLine_eq_false hinit hshut
  have hw := opWrites_eq_false h hm
  cases o with
  | configure v | release => cases hw
  | set l v | hold n | abort => rfl

/-- An operation leaves a chain none of whose lines it writes (R24, R37 to R39). -/
theorem runOp_chain {o : Op} {c : ChainId} (h : ∀ f, opWrites o ⟨c, f⟩ = false) (s : State) :
    (runOp o s).state.chain c = s.chain c := by
  cases o with
  | configure v | release => cases h .ser
  | set l v =>
    have hc : c ≠ l.chain := by
      rintro rfl
      simpa [opWrites] using h l.fn
    refine runOp_set_ends (I := fun t => t.chain c = s.chain c) l v s (by simp) fun u e _ => ?_
    simp [driveLine_chain_other l _ _ c hc]
  | hold m => exact runOp_hold_ends (I := fun t => t.chain c = s.chain c) m s (by simp)
  | abort => exact runOp_abort_ends (I := fun t => t.chain c = s.chain c) s (by simp)

/-- An operation leaves a line it does not write. -/
theorem runOp_line {o : Op} {m : Line} (h : opWrites o m = false) (s : State) :
    (runOp o s).state.line m = s.line m := by
  cases o with
  | configure v | release => cases h
  | set l v =>
    have hm : m ≠ l := by simpa [opWrites] using h
    refine runOp_set_ends (I := fun t => t.line m = s.line m) l v s (by simp [State.line]) fun u e _ => ?_
    have hline := driveLine_line_other l m (levelOf u) s.afterGpio hm
    simpa [State.line] using hline
  | hold n => exact runOp_hold_ends (I := fun t => t.line m = s.line m) n s (by simp [State.line])
  | abort => exact runOp_abort_ends (I := fun t => t.line m = s.line m) s (by simp [State.line])

theorem runOp_configured {o : Op} (h : isPlain o = true) (s : State) : (runOp o s).state.configured = s.configured := by
  cases o with
  | configure v | release => cases h
  | set l v =>
    exact runOp_set_ends (I := fun t => t.configured = s.configured) l v s (by simp) (by simp)
  | hold n => exact runOp_hold_ends (I := fun t => t.configured = s.configured) n s (by simp)
  | abort => exact runOp_abort_ends (I := fun t => t.configured = s.configured) s (by simp)

/-! ### Whole commands -/

/-- What the start of a command, each of its operations and both its ends keep, the command keeps. -/
theorem exec_keeps {I : State → Prop} {i : Instr} {s t : State} (h : exec i s = .next t) (hs : I s)
    (hstart : ∀ u p, planOf i s = .go u p → I u) (hop : ∀ o ∈ opsOf (progOf s.cfg i), ∀ u, I u → I (runOp o u).state)
    (hend : ∀ u e, I u → I (u.endCommand e)) (hfault : I (s.recordFault .unconfigured)) : I t := by
  obtain rfl : runPlan (planOf i s) s = t := Host.Outcome.next.inj ((exec_eq_runPlan i s).symm.trans h)
  cases hplan : planOf i s with
  | fault => exact hfault
  | raise e => exact hend s _ hs
  | go u p =>
    have hrun := runProg_keeps p ((planOf_go hplan).1 ▸ hop) u (hstart u p hplan)
    rw [runPlan]
    cases hr : runProg p u with
    | done v => rw [hr] at hrun; exact hend v _ hrun
    | raised e v => rw [hr] at hrun; exact hend v _ hrun
    | faulted v => rw [hr] at hrun; exact hrun

theorem commandFrame_exec {i : Instr} {s t : State} (h : exec i s = .next t) : CommandFrame s t := by
  refine exec_keeps h (.refl s) (fun u p hplan => ?_) (fun o _ u hu => hu.trans (commandFrame_runOp o u))
    (fun u e hu => hu.trans (commandFrame_endCommand u e)) (commandFrame_recordFault s _)
  rw [(planOf_go hplan).2]
  exact ⟨rfl, rfl, rfl, rfl, (CommandFrame.refl s).trace, List.Subset.refl _⟩

/-- A command leaves a chain none of whose lines it writes. -/
theorem exec_chain {i : Instr} {s t : State} {c : ChainId} (h : exec i s = .next t)
    (hw : ∀ f, writesLine i ⟨c, f⟩ = false) : t.chain c = s.chain c := by
  refine exec_keeps (I := fun t => t.chain c = s.chain c) h rfl (fun u p hplan => ?_) (fun o ho u hu => ?_) (by simp) (by simp)
  · rw [(planOf_go hplan).2]
    cases c <;> rfl
  · exact (runOp_chain (fun f => opWrites_eq_false ho (hw f)) u).trans hu

/-- A command leaves a line it does not write. -/
theorem exec_line {i : Instr} {s t : State} {m : Line} (h : exec i s = .next t) (hw : writesLine i m = false) :
    t.line m = s.line m := by
  refine exec_keeps (I := fun t => t.line m = s.line m) h rfl (fun u p hplan => ?_) (fun o ho u hu => ?_)
    (by simp [State.line]) (by simp [State.line])
  · rw [(planOf_go hplan).2]
    obtain ⟨c, f⟩ := m
    cases c <;> rfl
  · exact (runOp_line (opWrites_eq_false ho hw) u).trans hu

theorem exec_configured {i : Instr} {s t : State} (h : exec i s = .next t) (hinit : ∀ cl cd, i ≠ .init cl cd)
    (hshut : ∀ cl cd, i ≠ .shutdown cl cd) : t.configured = s.configured := by
  refine exec_keeps (I := fun t => t.configured = s.configured) h rfl (fun u p hplan => ?_)
    (fun o ho u hu => (runOp_configured (isPlain_of_mem_progOf hinit hshut ho) u).trans hu) (by simp) (by simp)
  rw [(planOf_go hplan).2]

theorem exec_result {i : Instr} {s t : State} (h : exec i s = .next t) (hi : ∀ v, i ≠ .encodeDigit v) :
    t.result = s.result := by
  refine exec_keeps (I := fun t => t.result = s.result) h rfl (fun u p hplan => ?_)
    (fun o _ u hu => (runOp_result o u).trans hu) (by simp) (by simp)
  obtain rfl | ⟨v, _, rfl, -⟩ := planOf_go_result hplan
  · rfl
  · exact absurd rfl (hi v)

/-- An abort point and a hold leave both chains and the board (R84, R150). -/
theorem wait_keeps {s t : State} {m : Nat}
    (h : abortPoint s = .done t ∨ abortPoint s = .raised .hostInterrupt t ∨ hold m s = .done t ∨
      hold m s = .raised .hostInterrupt t) : (∀ c, t.chain c = s.chain c) ∧ t.cfg = s.cfg := by
  have ht : t = (runOp .abort s).state ∨ t = (runOp (.hold m) s).state := by
    simp only [runOp]
    rcases h with h | h | h | h <;> simp [h]
  rcases ht with rfl | rfl
  · exact ⟨fun c => runOp_chain (fun _ => rfl) s, (commandFrame_runOp _ s).cfg⟩
  · exact ⟨fun c => runOp_chain (fun _ => rfl) s, (commandFrame_runOp _ s).cfg⟩

end Sys2Proof.Machine

open Sys2Proof Sys2Proof.Machine

/-- Settles O14: `CONFIGURED` by the operations of the command, `RESULT` by its start, the rest by what every step leaves. -/
theorem onlyTheNamedCommandsWriteRegisters : Obligations.OnlyTheNamedCommandsWriteRegisters := by
  intro i s t h
  obtain ⟨hcfg, hrefused, hhost, hreads, ⟨evs, htrace⟩, -⟩ := commandFrame_exec h
  exact ⟨exec_configured h, exec_result h, hcfg, hrefused, hhost, hreads, evs, htrace.symm⟩

/-- Settles O16: every operation of a command writes a line that its rule names. -/
theorem commandsTouchOnlyTheirLines : Obligations.CommandsTouchOnlyTheirLines := fun _ _ _ _ => exec_line

/-- Settles O17: driving a line leaves the other chain, stages and all. -/
theorem commandsLeaveTheOtherChain : Obligations.CommandsLeaveTheOtherChain := fun _ _ _ _ => exec_chain

/-- Settles O55: what a chain shows depends on the chain and the board, and both stay. -/
theorem shownContentStaysBetweenLineEvents : Obligations.ShownContentStaysBetweenLineEvents :=
  ⟨fun _ _ c _ h => State.visible_congr ((wait_keeps h).1 c) (wait_keeps h).2,
    fun _ _ _ _ h hw => State.visible_congr (exec_chain h hw) (commandFrame_exec h).cfg⟩
end

section
/-! PROOF. How a command ends: with its outcome, or with the fault where it needs configured lines (R146, R148, R149); every
way an `INITIALIZE` and a `SHUTDOWN` can go (R121, R123, R137, R153). -/

namespace Sys2Proof.Machine

/-! ### The end of a command -/

/-- What holds of a program's end, with its error if it has one, holds of the state in which the command's end is written. -/
theorem Holds.finish {R : Option Err → State → Prop} {x : Exit} (h : Holds x (R none) (fun e => R (some e))) :
    ∃ u e, Machine.finish x = u.endCommand e ∧ R e u := by
  cases x with
  | done u => exact ⟨u, none, rfl, h⟩
  | raised e u => exact ⟨u, some e, rfl, h⟩
  | faulted u => exact h.elim

/-- A command under way since `s`: its lines are configured, it has added no fault, and of the trace all is there. -/
structure Running (s t : State) : Prop where
  configured : t.configured = true
  faults : t.faults = s.faults
  trace : s.trace <+: t.trace

theorem Running.refl {s : State} (hc : s.configured = true) : Running s s := ⟨hc, rfl, [], List.append_nil _⟩

theorem Running.emit {s t : State} (h : Running s t) (e : TraceEvent) : Running s (t.emit e) :=
  ⟨h.configured, h.faults, h.trace.trans ⟨_, rfl⟩⟩

theorem Running.afterIrq {s t : State} (h : Running s t) : Running s t.afterIrq := ⟨h.configured, h.faults, h.trace⟩

theorem Running.set {s t : State} (h : Running s t) (l : Line) (v : Level) : Running s (driveLine l v t.afterGpio) :=
  ⟨by simpa using h.configured, by simpa using h.faults, by simpa using h.trace⟩

/-- A program of sets, holds and abort points: it neither configures nor releases. -/
def AllPlain (p : Prog) : Prop := ∀ o ∈ opsOf p, isPlain o = true

@[simp] theorem allPlain_op (o : Op) : AllPlain (.op o) ↔ isPlain o = true := by
  simp [AllPlain, opsOf]

@[simp] theorem allPlain_block_nil : AllPlain (block []) := fun _ h => nomatch h

@[simp] theorem allPlain_block_cons (p : Prog) (ps : List Prog) :
    AllPlain (block (p :: ps)) ↔ AllPlain p ∧ AllPlain (block ps) := by
  simp only [AllPlain, opsOf_block_cons, List.mem_append, or_imp, forall_and]

theorem AllPlain.onlyIf {p : Prog} (h : AllPlain p) (r : Bool) : AllPlain (Machine.onlyIf r p) := by
  cases r with
  | false => exact fun _ h => nomatch h
  | true => exact h

@[simp] theorem allPlain_loadSeq (m : Nat) (c : ChainId) (bits : List Bool) : AllPlain (loadSeq m c bits) := by
  intro o ho
  obtain rfl | rfl | ⟨f, v, -, rfl⟩ := mem_opsOf_loadSeq ho <;> rfl

theorem allPlain_clearChain (g : Board) (c : ChainId) : AllPlain (clearChain g c) := by
  simp [clearChain, isPlain]

theorem allPlain_clearAndEnable (g : Board) (c : ChainId) : AllPlain (clearAndEnable g c) := by
  simp [clearAndEnable, setEnable, allPlain_clearChain, isPlain]

theorem allPlain_blankChain (g : Board) (c : ChainId) : AllPlain (blankChain g c) := by
  simp [blankChain, setDisable, isPlain]

/-- On configured lines a program of sets, holds and abort points ends without a fault (R149). -/
theorem Running.triple {s : State} {p : Prog} (hp : AllPlain p) :
    Triple (Running s) p (Running s) (fun _ => Running s) := by
  refine Triple.keeps p fun o ho t ht => ?_
  cases o with
  | configure v | release => cases hp _ ho
  | set l v => exact gpioSet_holds l v t ht.configured ((ht.set l _).emit _) fun u => (ht.set l _).emit _
  | hold m => exact hold_holds m t (ht.afterIrq.emit _) (ht.afterIrq.emit _)
  | abort => exact abortPoint_holds t (ht.afterIrq.emit _) (ht.afterIrq.emit _)

/-! ### INITIALIZE -/

/-- What `INITIALIZE` does after its configure (R121). -/
def initClears (g : Board) (cl cd : Bool) : Prog :=
  block [.op .abort, onlyIf cl (clearAndEnable g .led), onlyIf cd (clearAndEnable g .dig)]

theorem progInit_eq (g : Board) (cl cd : Bool) :
    progInit g cl cd = .seq (.op .abort) (.seq (.op (.configure initLevel)) (initClears g cl cd)) := rfl

theorem allPlain_initClears (g : Board) (cl cd : Bool) : AllPlain (initClears g cl cd) := by
  simp [initClears, isPlain, (allPlain_clearAndEnable g _).onlyIf]

/-- The ways an `INITIALIZE` from `s` can go, up to the end written for its error: interrupted before the configure, a failed
configure, or a configure that succeeds (R121, R123). -/
def InitWay (s : State) (e : Option Err) (t : State) : Prop :=
  t.faults = s.faults ∧
    ((t.trace = s.trace ++ [TraceEvent.abortPoint true] ∧ e = some .hostInterrupt ∧ t.configured = s.configured ∧
        ∀ c, t.chain c = s.chain c) ∨
      (t.trace = s.trace ++ [TraceEvent.abortPoint false, TraceEvent.configure false false] ∧ e = some .hwAccessFailure ∧
        t.configured = false) ∨
      (s.trace ++ [TraceEvent.abortPoint false, TraceEvent.configure false true] <+: t.trace ∧ t.configured = true))

theorem progInit_way (g : Board) (cl cd : Bool) (s : State) :
    Holds (runProg (progInit g cl cd) s) (InitWay s none) (fun e => InitWay s (some e)) := by
  have habort : Triple (· = s) (.op .abort) (· = s.afterIrq.emit (.abortPoint false)) (fun e => InitWay s (some e)) := by
    rintro _ rfl
    exact abortPoint_holds _ rfl ⟨rfl, .inl ⟨rfl, rfl, rfl, by simp⟩⟩
  have hclears : ∀ u : State, Running u u → u.faults = s.faults →
      s.trace ++ [TraceEvent.abortPoint false, TraceEvent.configure false true] <+: u.trace →
      Holds (runProg (initClears g cl cd) u) (InitWay s none) (fun e => InitWay s (some e)) := by
    intro u hu hf htr
    have hway : ∀ e v, Running u v → InitWay s e v :=
      fun e v hv => ⟨hv.faults.trans hf, .inr (.inr ⟨htr.trans hv.trace, hv.configured⟩)⟩
    exact (Running.triple (allPlain_initClears g cl cd) u hu).mono (hway none) (fun e => hway (some e))
  have hconf : Triple (· = s.afterIrq.emit (.abortPoint false)) (.op (.configure initLevel))
      (fun u => Running u u ∧ u.faults = s.faults ∧
        s.trace ++ [TraceEvent.abortPoint false, TraceEvent.configure false true] <+: u.trace)
      (fun e => InitWay s (some e)) := by
    rintro _ rfl
    refine gpioConfigure_holds _ _ ⟨.refl rfl, by simp, by simp [initLevel]⟩ fun f => ?_
    exact ⟨by simp, .inr (.inl ⟨by simp [initLevel], rfl, rfl⟩)⟩
  rw [progInit_eq]
  exact (habort.seq (hconf.seq fun u hu => hclears u hu.1 hu.2.1 hu.2.2)) s rfl

/-! ### SHUTDOWN -/

theorem allPlain_shutdownBody (g : Board) (cl cd : Bool) : AllPlain (shutdownBody g cl cd) := by
  simp [shutdownBody, isPlain, (allPlain_blankChain g _).onlyIf, (allPlain_clearChain g _).onlyIf]

/-- The ways a `SHUTDOWN` under way since `s` can end, up to the end written for its error: released, the release the last call,
and its failure the error if it fails (R137, R153). -/
structure ShutdownWay (s : State) (e : Option Err) (t : State) : Prop where
  configured : t.configured = false
  released : allReleased t
  faults : t.faults = s.faults
  trace : ∃ evs ok, t.trace = s.trace ++ evs ++ [TraceEvent.release ok] ∧ (ok = false → e = some .hwAccessFailure)

theorem gpioRelease_way {s t : State} (h : Running s t) (e : Option Err) :
    Holds (runOp .release t) (ShutdownWay s e) (fun e' => ShutdownWay s (some e')) := by
  have hway : ∀ e, (t.gpioNow.ok = false → e = some .hwAccessFailure) → ShutdownWay s e (releaseLines t) := by
    intro e he
    obtain ⟨evs, htr⟩ := h.trace
    refine ⟨rfl, releaseLines_line t, by simpa [releaseLines] using h.faults, evs, _, ?_, he⟩
    simp [releaseLines, ← htr]
  simp only [runOp, gpioRelease]
  split
  · next hok => exact hway e fun h => by simp [hok] at h
  · exact hway _ fun _ => rfl

theorem progShutdown_way {s : State} (g : Board) (cl cd : Bool) (hc : s.configured = true) :
    Holds (runProg (progShutdown g cl cd) s) (ShutdownWay s none) (fun e => ShutdownWay s (some e)) := by
  have h : Triple (Running s) (progShutdown g cl cd) (ShutdownWay s none) (fun e => ShutdownWay s (some e)) :=
    Triple.guarded (Running.triple (allPlain_shutdownBody g cl cd)) (fun _ ht => gpioRelease_way ht none)
      (fun e _ ht => gpioRelease_way ht (some e))
  exact h s (.refl hc)

theorem exec_shutdown {s : State} (cl cd : Bool) (hc : s.configured = true) :
    exec (.shutdown cl cd) s = .next (finish (runProg (progShutdown s.cfg cl cd) s)) := by
  simp [exec_eq_runPlan, planOf, planShutdown, ifConfigured, hc, runPlan]

/-! ### Every command -/

/-- The configuration check is what faults (R149). -/
theorem ifConfigured_eq_fault {s : State} {plan : Plan} (h : plan ≠ .fault) :
    ifConfigured s plan = .fault ↔ s.configured = false := by
  cases hc : s.configured <;> simp [ifConfigured, hc, h]

theorem planOf_eq_fault {i : Instr} {s : State} : planOf i s = .fault ↔ needsLines i = true ∧ s.configured = false := by
  cases i with
  | init cl cd => simp [planOf, planInit, needsLines]
  | encodeDigit v => cases hv : encF v <;> simp [planOf, planEncodeDigit, needsLines, hv]
  | setDigits g =>
    refine (ifConfigured_eq_fault ?_).trans (by simp [needsLines])
    split <;> simp
  | _ => exact (ifConfigured_eq_fault (by simp)).trans (by simp [needsLines])

/-- A legal command's pseudocode ends without a fault, where its lines are configured if it needs them (R149). -/
theorem progOf_noFault {i : Instr} {s t : State} (h : needsLines i = true → t.configured = true) (g : Board)
    (hf : t.faults = s.faults) :
    Holds (runProg (progOf g i) t) (fun u => u.faults = s.faults) (fun _ u => u.faults = s.faults) := by
  have hplain : t.configured = true → AllPlain (progOf g i) →
      Holds (runProg (progOf g i) t) (fun u => u.faults = s.faults) (fun _ u => u.faults = s.faults) :=
    fun hc hp => (Running.triple hp t (.refl hc)).mono (fun _ hu => hu.faults.trans hf)
      (fun _ _ hu => hu.faults.trans hf)
  cases i with
  | init cl cd => exact (progInit_way g cl cd t).mono (fun _ hu => hu.1.trans hf) (fun _ _ hu => hu.1.trans hf)
  | shutdown cl cd =>
    exact (progShutdown_way g cl cd (h rfl)).mono (fun _ hu => hu.faults.trans hf) (fun _ _ hu => hu.faults.trans hf)
  | encodeDigit v => exact hf
  | _ => exact hplain (h rfl) fun _ => isPlain_of_mem_progOf (by simp) (by simp)

/-- A command whose lines are configured, if it needs them, comes to its end and adds no fault (R141, R149). -/
theorem exec_ends {i : Instr} {s : State} (h : needsLines i = true → s.configured = true) :
    ∃ (u : State) (e : Option Err), exec i s = .next (u.endCommand e) ∧ u.faults = s.faults := by
  rw [exec_eq_runPlan]
  cases hplan : planOf i s with
  | fault =>
    obtain ⟨hn, hc⟩ := planOf_eq_fault.1 hplan
    rw [h hn] at hc
    cases hc
  | raise e => exact ⟨s, some e, rfl, rfl⟩
  | go t p =>
    obtain ⟨rfl, ht⟩ := planOf_go hplan
    have hrun := progOf_noFault (i := i) (s := s) (t := t) (by rw [ht]; exact h) s.cfg (by rw [ht])
    obtain ⟨u, e, hfin, hu⟩ := Holds.finish (R := fun _ u => u.faults = s.faults) hrun
    exact ⟨u, e, by rw [runPlan, hfin], hu⟩

/-- On lines that are not configured a command that needs them faults (R149). -/
theorem exec_unconfigured {i : Instr} {s : State} (hn : needsLines i = true) (hc : s.configured = false) :
    exec i s = .next (s.recordFault .unconfigured) := by
  rw [exec_eq_runPlan, planOf_eq_fault.2 ⟨hn, hc⟩, runPlan]

/-- `STATUS.CONF` is `CONFIGURED` (R34). -/
theorem State.status_conf (s : State) : s.status.getLsbD 0 = s.configured := by
  rw [State.status, BitVec.getLsbD_append]
  simp

end Sys2Proof.Machine

open Sys2Proof Sys2Proof.Machine

/-- Settles O15: a configured command runs without a fault, and an unconfigured one faults before it acts. -/
theorem everyCommandEndsOrFaultsUnconfigured : Obligations.EveryCommandEndsOrFaultsUnconfigured := by
  intro i s
  by_cases h : needsLines i = true ∧ s.configured = false
  · exact ⟨_, exec_unconfigured h.1 h.2, by rw [if_pos h]; rfl⟩
  · obtain ⟨u, e, hrun, hf⟩ := exec_ends (i := i) (s := s) (by simpa using h)
    exact ⟨_, hrun, by rw [if_neg h]; exact ⟨rfl, rfl, by simp, hf⟩⟩

/-- Settles O41: by the outcome of its first two steps; what follows a configure keeps the lines configured. -/
theorem initializeConfiguresOrReports : Obligations.InitializeConfiguresOrReports := by
  intro cl cd s
  obtain ⟨u, e, hfin, hf, hway⟩ := (progInit_way s.cfg cl cd s).finish
  have hexec : exec (.init cl cd) s = .next (u.endCommand e) := congrArg _ hfin
  rcases hway with ⟨htr, rfl, hc, hch⟩ | ⟨htr, rfl, hc⟩ | ⟨⟨evs, htr⟩, hc⟩
  · exact ⟨_, _, hexec, by simp [htr], hf, .inl ⟨rfl, rfl, hc, by simpa using hch⟩⟩
  · exact ⟨_, _, hexec, by simp [htr], hf, .inr (.inl ⟨rfl, rfl, hc⟩)⟩
  · exact ⟨_, [TraceEvent.abortPoint false, .configure false true] ++ evs ++ [TraceEvent.ended e], hexec,
      by simp [← htr], hf, .inr (.inr ⟨by simp, hc⟩)⟩

/-- Settles O47: the release is the finally block around everything that can fail or be interrupted. -/
theorem shutdownAlwaysReleases : Obligations.ShutdownAlwaysReleases := by
  intro cl cd s hc
  obtain ⟨u, e, hfin, hway⟩ := (progShutdown_way s.cfg cl cd hc).finish
  obtain ⟨evs, ok, htr, hok⟩ := hway.trace
  refine ⟨u.endCommand e, evs, ok, by rw [exec_shutdown cl cd hc, hfin], hway.configured, fun l => ?_, rfl, rfl, ?_,
    by simp [htr], hok⟩
  · simpa [State.line] using hway.released l
  · rw [State.status_conf]
    exact hway.configured
end

section
/-! PROOF. Line events: active edges, undriven lines and the reset (R37 to R41, R169 to R171). -/

namespace Sys2Proof.Machine

theorem bitOf_eq_decide (v : Level) : bitOf v = decide (v = .hi) := by
  cases v <;> rfl

theorem levelOf_eq_hi {b : Bool} : levelOf b = .hi ↔ b = true := by
  cases b <;> simp

theorem levelAt_ne_z {l : LineLevels} (h : linesDriven l = true) (f : LineFn) : levelAt l f ≠ .z :=
  linesDriven_iff.1 h f

/-- A change to or from undriven is a redraw (R41). -/
theorem driveLine_of_undriven {l : Line} {v : Level} {s : State} (h : s.line l = .z ∨ v = .z) :
    driveLine l v s = undrivenHavoc l.chain (s.setLine l v) := by
  rw [driveLine, chainEvent, if_pos h]

theorem undrivenHavoc_chain (c : ChainId) (s : State) :
    (undrivenHavoc c s).chain c =
      { s.chain c with
        sr := Config.freeStages s.draws (s.cfg.depth c)
        st := Config.freeStages (s.draws + 1) (s.cfg.depth c)
        redraws := (s.chain c).redraws + 1 } := by
  cases c <;> rfl

/-- `STATUS` of an idle machine whose last command met no error is `CONF` (R34, R142). -/
theorem State.status_of_success {t : State} (he : t.err = none) (hb : t.busy = false) : t.status = bitWord t.configured := by
  rw [State.status, he, hb]
  cases t.configured <;> rfl

/-- After the reset event every line is undriven (R169). -/
theorem resetEvent_line (s : State) (l : Line) : (resetEvent s).line l = .z := by
  rw [State.line, resetEvent_chain]
  exact driveAll_line _ s l

end Sys2Proof.Machine

open Sys2Proof Sys2Proof.Machine

/-- Settles O18: all lines go to undriven, which redraws both chains, and the registers are cleared. -/
theorem resetInputGivesTheResetState : Obligations.ResetInputGivesTheResetState := by
  intro s rest hwf hh
  have hstep : step s = .next (resetEvent { s with host := rest }) := by
    rw [step_eq s hwf, State.nextAction_of_host hh]
    rfl
  have hstages := fun c => driveAll_undriven { s with host := rest } c
  simp only [← resetEvent_chain] at hstages
  have hline := resetEvent_line { s with host := rest }
  obtain ⟨x, y, n, hshape⟩ := resetEvent_shape { s with host := rest }
  rw [hshape] at hstep hstages hline
  exact ⟨_, hstep, rfl, hline, State.status_of_success rfl rfl, rfl, rfl, rfl, rfl, rfl, rfl, rfl, hstages⟩

/-- Settles O22: on driven lines only a rising clock or latch is an active edge. -/
theorem onlyRisingEdgesMoveTheStages : Obligations.OnlyRisingEdgesMoveTheStages := by
  intro l b s hd
  have hz := levelAt_ne_z hd
  rw [driveLine_chain_driven l (levelOf b) s (hz l.fn) (levelOf_ne_z b) (fun _ => hz .ser)]
  simp only [levelOf_eq_hi, bitOf_eq_decide, and_self]

/-- Settles O23: such a change is a redraw of its chain. -/
theorem undrivenChangesRedrawTheStages : Obligations.UndrivenChangesRedrawTheStages := by
  intro l v s h
  refine ⟨?_, ?_, ?_, ?_, fun d hd => driveLine_chain_other l v s d hd⟩ <;> rw [driveLine_of_undriven h]
  · simp [undrivenHavoc_chain, State.setLine]
  · simp [undrivenHavoc_chain, State.setLine]
  · simp [undrivenHavoc, State.setLine]
  · simp [undrivenHavoc_chain, State.setLine]
end

section
/-! PROOF. The Pulse Generator: every way a `PULSE` can end, and its edges (R80 to R82, R85). -/

namespace Sys2Proof.Machine

theorem exec_pulse {s : State} (l : Line) (rest : Bool) (w : BitVec 16) (hc : s.configured = true) :
    exec (.pulse l rest w) s = .next (finish (runProg (progPulse s.cfg l rest w) s)) := by
  simp [exec_eq_runPlan, planOf, planPulse, ifConfigured, hc, runPlan]

/-- The ways a `PULSE` from `s` can go, up to the end written for its error: interrupted before the line is touched; a failed
first set; or a hold with its restore (R80, R81, R153). -/
def PulseWay (l : Line) (rest : Bool) (micros : Nat) (s : State) (e : Option Err) (t : State) : Prop :=
  (e = some .hostInterrupt ∧ (∀ c, t.chain c = s.chain c) ∧ t.trace = s.trace ++ [TraceEvent.abortPoint true]) ∨
    (e = some .hwAccessFailure ∧ t.line l ≠ .z ∧
      t.trace = s.trace ++ [TraceEvent.abortPoint false, TraceEvent.set l (!rest) false]) ∨
    ∃ irq ok,
      t.trace = s.trace ++ [TraceEvent.abortPoint false, TraceEvent.set l (!rest) true, TraceEvent.hold micros irq,
          TraceEvent.set l rest ok] ∧
        (ok = true → t.line l = levelOf rest) ∧
        e = if ok = false then some .hwAccessFailure else if irq = true then some .hostInterrupt else none

/-- The lines are configured, and since `s` the trace has these entries. -/
def Since (s : State) (evs : List TraceEvent) (t : State) : Prop := t.configured = true ∧ t.trace = s.trace ++ evs

theorem progPulse_way {s : State} (g : Board) (l : Line) (rest : Bool) (w : BitVec 16) (hc : s.configured = true) :
    Holds (runProg (progPulse g l rest w) s) (PulseWay l rest (pulseWidth g w) s none)
      (fun e => PulseWay l rest (pulseWidth g w) s (some e)) := by
  have habort : Triple (· = s) (.op .abort) (Since s [.abortPoint false])
      (fun e => PulseWay l rest (pulseWidth g w) s (some e)) := by
    rintro _ rfl
    exact abortPoint_holds _ ⟨hc, rfl⟩ (.inl ⟨rfl, by simp, rfl⟩)
  have hset : Triple (Since s [.abortPoint false]) (.op (.set l (!rest)))
      (Since s [.abortPoint false, .set l (!rest) true]) (fun e => PulseWay l rest (pulseWidth g w) s (some e)) := by
    rintro t ⟨htc, htr⟩
    refine gpioSet_holds _ _ _ htc ⟨by simp [htc], by simp [htr]⟩ fun u => .inr (.inl ⟨rfl, ?_, by simp [htr]⟩)
    exact (driveLine_line_same l _ t.afterGpio).trans_ne (levelOf_ne_z u)
  have hhold : Triple (Since s [.abortPoint false, .set l (!rest) true]) (.op (.hold (pulseWidth g w)))
      (Since s [.abortPoint false, .set l (!rest) true, .hold (pulseWidth g w) false])
      (fun e t => e = .hostInterrupt ∧ Since s [.abortPoint false, .set l (!rest) true, .hold (pulseWidth g w) true] t) := by
    rintro t ⟨htc, htr⟩
    exact hold_holds _ _ ⟨htc, by simp [htr]⟩ ⟨rfl, htc, by simp [htr]⟩
  have hrestore : ∀ irq t, Since s [.abortPoint false, .set l (!rest) true, .hold (pulseWidth g w) irq] t →
      Holds (runOp (.set l rest) t) (PulseWay l rest (pulseWidth g w) s (if irq = true then some .hostInterrupt else none))
        (fun e => PulseWay l rest (pulseWidth g w) s (some e)) := by
    rintro irq t ⟨htc, htr⟩
    refine gpioSet_holds _ _ _ htc (.inr (.inr ⟨irq, true, by simp [htr], fun _ => ?_, by simp⟩))
      fun u => .inr (.inr ⟨irq, false, by simp [htr], by simp, by simp⟩)
    exact driveLine_line_same l _ t.afterGpio
  have hguarded : Triple (Since s [.abortPoint false, .set l (!rest) true])
      (.guarded (.op (.hold (pulseWidth g w))) (.set l rest)) (PulseWay l rest (pulseWidth g w) s none)
      (fun e => PulseWay l rest (pulseWidth g w) s (some e)) := by
    refine Triple.guarded hhold (fun t ht => hrestore false t ht) ?_
    rintro _ t ⟨rfl, ht⟩
    exact hrestore true t ht
  exact (habort.seq ((hset.seq hguarded).seq Triple.skip)) s rfl

/-- In a quiet environment a command whose pseudocode is plain ends with success, with the trace of its operations. -/
theorem finish_quiet {p : Prog} {s : State} {Q : State → Prop} (hp : AllPlain p) (hc : s.configured = true)
    (hq : s.quiet = true) (h : Holds (runProg p s) Q (fun _ _ => True)) :
    ∃ u, finish (runProg p s) = u.endCommand none ∧ u.trace = s.trace ++ quietTrace p ∧ Q u := by
  obtain ⟨u, hrun, -, -, htr⟩ := runProg_quiet p hp s hc hq
  rw [hrun] at h
  exact ⟨u, by rw [hrun, finish_done], htr, h⟩

theorem allPlain_pulseLine (l : Line) (r : Bool) (m : Nat) : AllPlain (pulseLine l r m) := by
  simp [AllPlain, opsOf_pulseLine, isPlain]

theorem allPlain_progPulse (g : Board) (l : Line) (rest : Bool) (w : BitVec 16) : AllPlain (progPulse g l rest w) := by
  simp [progPulse, allPlain_pulseLine, isPlain]

/-- Of the ways of a `PULSE`, success is the one that held and restored uninterrupted. -/
theorem PulseWay.success {l : Line} {rest : Bool} {micros : Nat} {s t : State} (h : PulseWay l rest micros s none t) :
    t.line l = levelOf rest ∧
      t.trace = s.trace ++ [TraceEvent.abortPoint false, TraceEvent.set l (!rest) true, TraceEvent.hold micros false,
        TraceEvent.set l rest true] := by
  rcases h with ⟨he, -⟩ | ⟨he, -⟩ | ⟨irq, ok, htr, hline, he⟩
  · cases he
  · cases he
  · cases ok with
    | false => cases he
    | true =>
      cases irq with
      | true => cases he
      | false => exact ⟨hline rfl, htr⟩

/-- A whole pulse of a driven clock or latch is one active edge, but for a line at 1 whose rest level is 0 (R85). -/
theorem Chain.drive_drive {x : Chain} {d : Nat} {f : LineFn} (r : Bool) (hf : levelAt x.lines f ≠ .z) :
    ((x.drive d f (!r)).drive d f r).sr =
        (if f = .clk ∧ ¬(levelAt x.lines f = .hi ∧ r = false) then (decide (x.lines.ser = .hi) :: x.sr).take d else x.sr) ∧
      ((x.drive d f (!r)).drive d f r).st =
        if f = .lat ∧ ¬(levelAt x.lines f = .hi ∧ r = false) then x.sr else x.st := by
  obtain ⟨b, hb⟩ := exists_levelOf hf
  cases f <;> cases r <;> cases b <;> simp_all [Chain.drive, levelAt, withLevel, bitOf_eq_decide]

end Sys2Proof.Machine

open Sys2Proof Sys2Proof.Machine

/-- Settles O26: the restore is the finally block around the hold alone. -/
theorem pulseAlwaysRestoresAfterItsHold : Obligations.PulseAlwaysRestoresAfterItsHold := by
  intro l rest w s hc
  obtain ⟨u, e, hfin, hway⟩ := (progPulse_way s.cfg l rest w hc).finish
  refine ⟨u.endCommand e, by rw [exec_pulse l rest w hc, hfin], ?_⟩
  rcases hway with ⟨rfl, hch, htr⟩ | ⟨rfl, hline, htr⟩ | ⟨irq, ok, htr, hline, rfl⟩
  · exact .inl ⟨rfl, by simpa using hch, by simp [htr]⟩
  · exact .inr (.inl ⟨rfl, by simpa [State.line] using hline, by simp [htr]⟩)
  · exact .inr (.inr ⟨irq, ok, by simp [htr, pulseWidth], by simpa [State.line] using hline, rfl⟩)

/-- Settles O24: of the ways of O26, a quiet environment leaves the last one, without interrupt or failure. -/
theorem pulseCompletes : Obligations.PulseCompletes := by
  intro l rest w s hc hq
  obtain ⟨u, hfin, -, hway⟩ := finish_quiet (allPlain_progPulse s.cfg l rest w) hc hq
    ((progPulse_way s.cfg l rest w hc).mono (fun _ h => h) (fun _ _ _ => trivial))
  obtain ⟨hline, htr⟩ := hway.success
  have hexec : exec (.pulse l rest w) s = .next (u.endCommand none) := by rw [exec_pulse l rest w hc, hfin]
  refine ⟨_, hexec, ⟨rfl, rfl, rfl⟩, by simpa [State.line] using hline, by simp [htr, pulseWidth],
    fun m hm => exec_line hexec (by simp [writesLine, hm]), fun d hd => exec_chain hexec fun f => ?_⟩
  have hne : (⟨d, f⟩ : Line) ≠ l := fun h => hd (congrArg Line.chain h)
  simp [writesLine, hne]

/-- Settles O25: the two sets of a pulse as events of the chain. -/
theorem pulseMakesAtMostOneActiveEdge : Obligations.PulseMakesAtMostOneActiveEdge := by
  intro l rest w s hc hq hd
  have hz := levelAt_ne_z hd
  have hat : Triple (At l.chain s.cfg (s.chain l.chain)) (progPulse s.cfg l rest w) _ (fun _ _ => True) :=
    abort_at.anyError.seq ((pulse_at l.fn rest _ (hz l.fn) (fun _ => hz .ser)).anyError.seq Triple.skip)
  obtain ⟨u, hfin, -, -, -, hux⟩ := finish_quiet (allPlain_progPulse s.cfg l rest w) hc hq (hat s ⟨hc, rfl, rfl⟩)
  refine ⟨u.endCommand none, by rw [exec_pulse l rest w hc, hfin], ?_⟩
  rw [State.endCommand_chain, hux]
  exact Chain.drive_drive rest (hz l.fn)
end

section
/-! PROOF. The Output Controller: `ENABLE` shows the chain and `DISABLE` blanks it (R112, R113). -/

namespace Sys2Proof.Machine

/-- In a quiet environment the pseudocode that `ENABLE` and `DISABLE` share ends with success, the enable line at its level,
driven before or not. -/
theorem setOutput_line {c : ChainId} {s : State} (b : Bool) (hc : s.configured = true) (hq : s.quiet = true) :
    ∃ t, finish (runProg (setOutput c b) s) = t ∧ EndedWell t ∧ t.cfg = s.cfg ∧ t.line ⟨c, .oe⟩ = levelOf b := by
  have habort : Triple (· = s) (.op .abort) (· = s.afterIrq.emit (.abortPoint false)) (fun _ _ => True) := by
    rintro _ rfl
    exact abortPoint_holds _ rfl trivial
  have hset : Triple (· = s.afterIrq.emit (.abortPoint false)) (.op (.set ⟨c, .oe⟩ b))
      (fun u => u.cfg = s.cfg ∧ u.line ⟨c, .oe⟩ = levelOf b) (fun _ _ => True) := by
    rintro _ rfl
    exact gpioSet_holds _ _ (s.afterIrq.emit (.abortPoint false)) hc ⟨by simp, driveLine_line_same _ _ (State.afterGpio _)⟩
      (fun _ => trivial)
  have hp : AllPlain (setOutput c b) := by simp [setOutput, isPlain]
  obtain ⟨u, hfin, -, hcfg, hline⟩ := finish_quiet hp hc hq (habort.seq (hset.seq Triple.skip) s rfl)
  exact ⟨_, hfin, ⟨rfl, rfl, rfl⟩, hcfg, by simpa [State.line] using hline⟩

end Sys2Proof.Machine

open Sys2Proof Sys2Proof.Machine

/-- Settles O37: the enable line is at its active level, so the chain shows its latched content. -/
theorem enableShowsTheLatchedContent : Obligations.EnableShowsTheLatchedContent := by
  intro c s hc hq
  obtain ⟨t, hfin, hend, hcfg, hline⟩ := setOutput_line (c := c) s.cfg.oeActive hc hq
  exact ⟨t, by rw [exec_enable c hc, hfin], hend, hline, by rw [State.visible_of_oe hline, hcfg, if_pos rfl]⟩

/-- Settles O38: the enable line is at its inactive level, so the chain shows nothing. -/
theorem disableBlanksTheChain : Obligations.DisableBlanksTheChain := by
  intro c s hc hq
  obtain ⟨t, hfin, hend, hcfg, hline⟩ := setOutput_line (c := c) (!s.cfg.oeActive) hc hq
  exact ⟨t, by rw [exec_disable c hc, hfin], hend, hline, by simp [State.visible_of_oe hline, hcfg]⟩
end

section
/-! PROOF. The Shift-Register Loader: what a `LOAD` leaves, in every environment and from a line left high (R98 to R107, R176). -/

namespace Sys2Proof.Machine

theorem exec_loadLed {s : State} (b : BitVec 6) (hc : s.configured = true) :
    exec (.loadLed b) s = .next (finish (runProg (progLoad s.cfg .led (seqOfField b)) s)) := by
  simp [exec_eq_runPlan, planOf, planLoad, ifConfigured, hc, runPlan]

theorem allPlain_progLoad (g : Board) (c : ChainId) (bits : List Bool) : AllPlain (progLoad g c bits) :=
  fun _ => isPlain_of_mem_progLoad

/-! ### The calls of a load -/

/-- The calls and holds of a program in a quiet environment. -/
def quietCalls (p : Prog) : List TraceEvent := (quietTrace p).filter isCallOrHold

@[simp] theorem quietCalls_block_nil : quietCalls (block []) = [] := rfl

@[simp] theorem quietCalls_block_cons (p : Prog) (ps : List Prog) :
    quietCalls (block (p :: ps)) = quietCalls p ++ quietCalls (block ps) := by
  simp [quietCalls, quietTrace, opsOf_block_cons]

@[simp] theorem quietCalls_abort : quietCalls (.op .abort) = [] := rfl

@[simp] theorem quietCalls_set (l : Line) (v : Bool) : quietCalls (.op (.set l v)) = [.set l v true] := rfl

@[simp] theorem quietCalls_onlyIf (r : Bool) (p : Prog) : quietCalls (onlyIf r p) = if r then quietCalls p else [] := by
  cases r <;> rfl

/-- A load makes its calls and holds in the order of R105. -/
@[simp] theorem quietCalls_loadSeq (m : Nat) (c : ChainId) (bits : List Bool) :
    quietCalls (loadSeq m c bits) = loadCalls c m bits := by
  simp [quietCalls, quietTrace, opsOf_loadSeq, loadCalls, List.map_flatMap, List.filter_flatMap, quietEvent]
  rfl

theorem loadCalls_length (c : ChainId) (m : Nat) (bits : List Bool) :
    (loadCalls c m bits).length = 4 * bits.length + 3 := by
  simp [loadCalls, Nat.mul_comm]

/-- In a quiet environment the calls and holds of a load are those of R105. -/
theorem progLoad_calls {c : ChainId} {s : State} (bits : List Bool) (hc : s.configured = true) (hq : s.quiet = true) :
    ∃ t evs, finish (runProg (progLoad s.cfg c bits) s) = t ∧ t.trace = s.trace ++ evs ∧
      evs.filter isCallOrHold = loadCalls c s.cfg.tPulse bits ∧
      (evs.filter isCallOrHold).length = 4 * bits.length + 3 := by
  have hp := allPlain_progLoad s.cfg c bits
  obtain ⟨u, hfin, htr, -⟩ := finish_quiet (Q := fun _ => True) hp hc hq
    ((Running.triple hp s (.refl hc)).mono (fun _ _ => trivial) (fun _ _ _ => trivial))
  have hcalls : (quietTrace (progLoad s.cfg c bits) ++ [TraceEvent.ended none]).filter isCallOrHold =
      loadCalls c s.cfg.tPulse bits := by
    have h : quietCalls (progLoad s.cfg c bits) = loadCalls c s.cfg.tPulse bits := by simp [progLoad]
    rw [List.filter_append, ← h]
    exact List.append_nil _
  exact ⟨_, _, hfin, by rw [State.endCommand_trace, htr, List.append_assoc], hcalls, by rw [hcalls, loadCalls_length]⟩

/-! ### All or nothing -/

/-- However a load of a chain at rest ends, its storage stages are as they were or hold the new content, and the new content if it
ends with success (R102, R106). -/
theorem progLoad_allOrNothing {c : ChainId} {s : State} {n : Nat} (b : BitVec (n + 1)) (hc : s.configured = true)
    (hx : (s.chain c).atRest = true) (hd : n + 1 ≤ s.cfg.depth c) :
    ∃ (u : State) (e : Option Err), finish (runProg (progLoad s.cfg c (seqOfField b)) s) = u.endCommand e ∧
      ((u.chain c).st = (s.chain c).st ∨ (u.chain c).st = stagesOfField b ++ (s.chain c).sr.take (s.cfg.depth c - (n + 1))) ∧
      (e = none → (u.chain c).st = stagesOfField b ++ (s.chain c).sr.take (s.cfg.depth c - (n + 1))) := by
  obtain ⟨hser, hlines⟩ := Chain.atRest_iff.1 hx
  have hload := loadSeq_at (c := c) (g := s.cfg) s.cfg.tPulse (s.chain c).lines.oe (s.chain c).st (seqOfField b)
    (s.chain c).lines.ser (s.chain c).sr (s.chain c).redraws hser
  rw [← hlines, shiftAll_field b (s.chain c).sr n.succ_ne_zero hd] at hload
  have hprog : Triple (At c s.cfg (s.chain c)) (progLoad s.cfg c (seqOfField b)) _ _ :=
    (abort_at.conseq (fun _ h => h) (fun _ h => h) (fun _ _ h => ⟨_, h, .inl rfl⟩)).seq (hload.seq Triple.skip)
  refine Holds.finish (R := fun e u => (_ ∨ _) ∧ (e = none → _)) ((hprog s ⟨hc, rfl, rfl⟩).mono ?_ ?_)
  · rintro u ⟨-, -, hux⟩
    rw [hux]
    exact ⟨.inr rfl, fun _ => rfl⟩
  · rintro e u ⟨y, ⟨-, -, rfl⟩, hst⟩
    exact ⟨hst, fun h => nomatch h⟩

/-! ### A line left high -/

/-- The stages that hold all bits but the first of a field that was shifted in without its first bit (R176). -/
theorem shiftAll_field_tail {n d : Nat} (b : BitVec (n + 2)) (sr : List Bool) (hd : n + 1 ≤ d) :
    shiftAll d (seqOfField b).tail sr = (stagesOfField b).take (n + 1) ++ sr.take (d - (n + 1)) := by
  have hlen : (seqOfField b).tail.length = n + 1 := by simp
  have hrev : (seqOfField b).tail.reverse = (stagesOfField b).take (n + 1) := by
    rw [← List.dropLast_reverse, seqOfField_reverse, List.dropLast_eq_take, stagesOfField_length]
    rfl
  have htake : ((stagesOfField b).take (n + 1)).length = n + 1 := by simp
  rw [shiftAll_eq _ _ _ (List.ne_nil_of_length_eq_add_one hlen), hrev, List.take_append, htake,
    List.take_of_length_le (htake.trans_le hd)]

/-- A load whose clock was left at 1: its first pulse makes no rising edge, and the rest is a load of the bits after the first
(R176). -/
theorem loadSeq_clockHigh {c : ChainId} {g : Board} {x : Chain} (m : Nat) (b : Bool) (bs : List Bool)
    (hser : x.lines.ser ≠ .z) (hclk : x.lines.clk = .hi) (hlat : x.lines.lat = .lo) :
    Triple (At c g x) (loadSeq m c (b :: bs))
      (At c g { lines := ⟨serAfter bs (levelOf b), .lo, .lo, x.lines.oe⟩, sr := shiftAll (g.depth c) bs x.sr,
                st := shiftAll (g.depth c) bs x.sr, redraws := x.redraws + bs.length + 1 }) (fun _ _ => True) := by
  have hfirst : ((x.drive (g.depth c) .ser b).drive (g.depth c) .clk (!restClk)).drive (g.depth c) .clk restClk =
      ⟨⟨levelOf b, .lo, .lo, x.lines.oe⟩, x.sr, x.st, x.redraws⟩ := by
    simp [Chain.drive, restClk, withLevel, levelAt, hclk, hlat]
  have hset := (set_at (c := c) (g := g) .ser b hser (by simp)).anyError
  have hpulse := (pulse_at (c := c) (g := g) (x := x.drive (g.depth c) .ser b) .clk restClk m
    (by simp [Chain.drive, withLevel, levelAt, hclk]) (by simp [Chain.drive, withLevel])).anyError
  rw [hfirst] at hpulse
  have hrest := (loadSeq_at (c := c) (g := g) m x.lines.oe x.st bs (levelOf b) x.sr x.redraws (levelOf_ne_z b)).anyError
  exact hset.seq (abort_at.anyError.seq (hpulse.seq (abort_at.anyError.seq (hrest.seq Triple.skip))))

/-- A chain whose latch was left at 1, its other load lines driven, with its storage stages. -/
structure Chain.LatchHigh (st : List Bool) (x : Chain) : Prop where
  ser : x.lines.ser ≠ .z
  clk : x.lines.clk ≠ .z
  lat : x.lines.lat = .hi
  stages : x.st = st

theorem Chain.LatchHigh.drive_ser {st : List Bool} {x : Chain} (h : x.LatchHigh st) (d : Nat) (b : Bool) :
    (x.drive d .ser b).LatchHigh st :=
  ⟨by simp [withLevel], h.clk, h.lat, by simpa [Chain.drive] using h.stages⟩

theorem Chain.LatchHigh.drive_clk {st : List Bool} {x : Chain} (h : x.LatchHigh st) (d : Nat) (b : Bool) :
    (x.drive d .clk b).LatchHigh st :=
  ⟨h.ser, by simp [withLevel], h.lat, by simpa [Chain.drive] using h.stages⟩

/-- A load whose latch was left at 1 latches nothing: its latch pulse makes no rising edge (R176). -/
theorem loadSeq_latchHigh {c : ChainId} {g : Board} (m : Nat) {st : List Bool} (bits : List Bool) :
    ∀ x : Chain, x.LatchHigh st →
      Triple (At c g x) (loadSeq m c bits) (fun t => (t.chain c).lines.lat = .lo ∧ (t.chain c).st = st)
        (fun _ _ => True) := by
  induction bits with
  | nil =>
    intro x hx
    refine (pulse_at .lat restLat m (by simp [levelAt, hx.lat]) (by simp)).anyError.conseq (fun _ h => h) ?_ (fun _ _ h => h)
    rintro t ⟨-, -, htx⟩
    rw [htx]
    simp [Chain.drive, withLevel, restLat, hx.lat, hx.stages]
  | cons b bs ih =>
    intro x hx
    have hser := hx.drive_ser (g.depth c) b
    have hset := (set_at (c := c) (g := g) .ser b hx.ser (by simp)).anyError
    have hpulse := (pulse_at (c := c) (g := g) .clk restClk m hser.clk fun _ => hser.ser).anyError
    have hrest := ih _ ((hser.drive_clk (g.depth c) (!restClk)).drive_clk (g.depth c) restClk)
    exact hset.seq (abort_at.anyError.seq (hpulse.seq (abort_at.anyError.seq (hrest.seq Triple.skip))))

theorem seqOfField_eq_cons {n : Nat} (b : BitVec (n + 1)) : ∃ b₁, seqOfField b = b₁ :: (seqOfField b).tail := by
  obtain ⟨b₁, bs, h⟩ := List.exists_cons_of_length_eq_add_one (seqOfField_length b)
  exact ⟨b₁, by rw [h, List.tail_cons]⟩

/-- A quiet load whose clock was left at 1 loses its first bit, and latches the others behind which the old stages lie (R176). -/
theorem progLoad_clockHigh {c : ChainId} {s : State} {n : Nat} (b : BitVec (n + 2)) (hc : s.configured = true)
    (hq : s.quiet = true) (hser : (s.chain c).lines.ser ≠ .z) (hclk : (s.chain c).lines.clk = .hi)
    (hlat : (s.chain c).lines.lat = .lo) (hd : n + 1 ≤ s.cfg.depth c) :
    ∃ t, finish (runProg (progLoad s.cfg c (seqOfField b)) s) = t ∧ EndedWell t ∧ (t.chain c).lines.clk = .lo ∧
      (t.chain c).st = (t.chain c).sr ∧
      (t.chain c).sr = (stagesOfField b).take (n + 1) ++ (s.chain c).sr.take (s.cfg.depth c - (n + 1)) := by
  obtain ⟨b₁, hb⟩ := seqOfField_eq_cons b
  have hload := loadSeq_clockHigh (c := c) (g := s.cfg) s.cfg.tPulse b₁ (seqOfField b).tail hser hclk hlat
  rw [← hb, shiftAll_field_tail b _ hd] at hload
  have hprog : Triple (At c s.cfg (s.chain c)) (progLoad s.cfg c (seqOfField b)) _ (fun _ _ => True) :=
    abort_at.anyError.seq (hload.seq Triple.skip)
  obtain ⟨u, hfin, -, -, -, hux⟩ :=
    finish_quiet (allPlain_progLoad s.cfg c (seqOfField b)) hc hq (hprog s ⟨hc, rfl, rfl⟩)
  refine ⟨_, hfin, ⟨rfl, rfl, rfl⟩, ?_⟩
  rw [State.endCommand_chain, hux]
  exact ⟨rfl, rfl, rfl⟩

/-- A quiet load whose latch was left at 1 latches nothing and leaves the latch at rest (R176). -/
theorem progLoad_latchHigh {c : ChainId} {s : State} (bits : List Bool) (hc : s.configured = true) (hq : s.quiet = true)
    (hser : (s.chain c).lines.ser ≠ .z) (hclk : (s.chain c).lines.clk ≠ .z) (hlat : (s.chain c).lines.lat = .hi) :
    ∃ t, finish (runProg (progLoad s.cfg c bits) s) = t ∧ EndedWell t ∧ (t.chain c).lines.lat = .lo ∧
      (t.chain c).st = (s.chain c).st := by
  have hprog : Triple (At c s.cfg (s.chain c)) (progLoad s.cfg c bits) _ (fun _ _ => True) :=
    abort_at.anyError.seq ((loadSeq_latchHigh _ bits _ ⟨hser, hclk, hlat, rfl⟩).seq Triple.skip)
  obtain ⟨u, hfin, -, hux⟩ := finish_quiet (allPlain_progLoad s.cfg c bits) hc hq (hprog s ⟨hc, rfl, rfl⟩)
  exact ⟨_, hfin, ⟨rfl, rfl, rfl⟩, by simpa using hux⟩

end Sys2Proof.Machine

open Sys2Proof Sys2Proof.Machine

/-- Settles O31: six bits, shifted in and latched. -/
theorem loadLedPutsItsBitsInTheStages : Obligations.LoadLedPutsItsBitsInTheStages := by
  intro b s hc hq hx
  obtain ⟨t, hfin, hend, -, -, -, htx⟩ := progLoad_quiet (c := .led) b hc hq hx (Nat.le_add_left 6 _)
  rw [State.chain_led] at htx
  exact ⟨t, by rw [exec_loadLed b hc, hfin], hend, by simp [htx, Chain.loaded, Board.depth], by simp [htx, Chain.loaded],
    by simp [htx]⟩

/-- Settles O32: as many bits as the chain has stages, so no old stage is left. -/
theorem loadDigPutsItsBitsInTheStages : Obligations.LoadDigPutsItsBitsInTheStages := by
  intro b s hc hq hx
  obtain ⟨t, hfin, hend, -, -, -, htx⟩ := progLoad_quiet (c := .dig) b hc hq hx (Nat.le_refl 24)
  rw [State.chain_dig] at htx
  exact ⟨t, by rw [exec_loadDig b hc, hfin], hend, by simp [htx, Chain.loaded, Board.depth], by simp [htx, Chain.loaded],
    by simp [htx]⟩

/-- Settles O33: four calls and holds for each bit and three for the latch. -/
theorem loadMakesExactlyItsCalls : Obligations.LoadMakesExactlyItsCalls := by
  intro s hc hq
  constructor
  · intro b
    obtain ⟨t, evs, hfin, htr, hcalls, hlen⟩ := progLoad_calls (c := .led) (seqOfField b) hc hq
    exact ⟨t, evs, by rw [exec_loadLed b hc, hfin], htr, hcalls, by rw [hlen, seqOfField_length]⟩
  · intro b
    obtain ⟨t, evs, hfin, htr, hcalls, hlen⟩ := progLoad_calls (c := .dig) (seqOfField b) hc hq
    exact ⟨t, evs, by rw [exec_loadDig b hc, hfin], htr, hcalls, by rw [hlen, seqOfField_length]⟩

/-- Settles O34: only the latch pulse at the end moves a storage stage. -/
theorem loadIsAllOrNothing : Obligations.LoadIsAllOrNothing := by
  intro s hc
  constructor
  · intro b hx
    obtain ⟨u, e, hfin, hst, hok⟩ := progLoad_allOrNothing (c := .led) b hc hx (Nat.le_add_left 6 _)
    exact ⟨u.endCommand e, by rw [exec_loadLed b hc, hfin], hst, hok⟩
  · intro b hx
    obtain ⟨u, e, hfin, hst, hok⟩ := progLoad_allOrNothing (c := .dig) b hc hx (Nat.le_refl 24)
    simp only [Board.depth, Nat.sub_self, List.take_zero, List.append_nil] at hst hok
    exact ⟨u.endCommand e, by rw [exec_loadDig b hc, hfin], hst, hok⟩

/-- Settles O35: the first clock pulse starts at 1 and makes no rising edge. -/
theorem clockLeftHighLosesTheFirstBit : Obligations.ClockLeftHighLosesTheFirstBit := by
  intro s hc hq
  constructor
  · intro b hser hclk hlat
    obtain ⟨t, hfin, hend, htclk, hst, hsr⟩ := progLoad_clockHigh (c := .led) b hc hq hser hclk hlat (Nat.le_add_left 5 _)
    rw [State.chain_led] at hsr
    refine ⟨t, by rw [exec_loadLed b hc, hfin], hend, htclk, hst, ?_⟩
    simp [hsr, List.take_append, List.take_take, Board.depth]
  · intro b hser hclk hlat
    obtain ⟨t, hfin, hend, htclk, hst, hsr⟩ := progLoad_clockHigh (c := .dig) b hc hq hser hclk hlat (Nat.le_succ 23)
    exact ⟨t, by rw [exec_loadDig b hc, hfin], hend, htclk, hst, hsr⟩

/-- Settles O36: the latch pulse starts at 1 and makes no rising edge. -/
theorem latchLeftHighLatchesNothing : Obligations.LatchLeftHighLatchesNothing := by
  intro s hc hq
  constructor
  · intro b hser hclk hlat
    obtain ⟨t, hfin, h⟩ := progLoad_latchHigh (c := .led) (seqOfField b) hc hq hser hclk hlat
    exact ⟨t, by rw [exec_loadLed b hc, hfin], h⟩
  · intro b hser hclk hlat
    obtain ⟨t, hfin, h⟩ := progLoad_latchHigh (c := .dig) (seqOfField b) hc hq hser hclk hlat
    exact ⟨t, by rw [exec_loadDig b hc, hfin], h⟩
end

section
/-! PROOF. The Board Facade: a completed `SHUTDOWN` (R135, R136), a rejected `SET_DIGITS` (R129), and a completed `INITIALIZE`
(R121, R122). -/

namespace Sys2Proof.Machine

/-! ### SHUTDOWN -/

theorem quietCalls_clearChain (g : Board) (c : ChainId) : quietCalls (clearChain g c) = loadCalls c g.tPulse (allOff c) := by
  simp [clearChain]

theorem quietCalls_blankChain (g : Board) (c : ChainId) :
    quietCalls (blankChain g c) = [.set ⟨c, .oe⟩ (!g.oeActive) true] := by
  simp [blankChain, setDisable]

/-- The phases of a `SHUTDOWN`: the requested disables, then the requested clears, the LED chain first (R135, R136). -/
theorem quietCalls_shutdownBody (g : Board) (cl cd : Bool) :
    quietCalls (shutdownBody g cl cd) =
      (if cl then [TraceEvent.set ⟨.led, .oe⟩ (!g.oeActive) true] else []) ++
        (if cd then [TraceEvent.set ⟨.dig, .oe⟩ (!g.oeActive) true] else []) ++
        (if cl then loadCalls .led g.tPulse (allOff .led) else []) ++
        (if cd then loadCalls .dig g.tPulse (allOff .dig) else []) := by
  simp [shutdownBody, quietCalls_blankChain, quietCalls_clearChain]

/-- In a quiet environment the body of a `SHUTDOWN` runs to its end, and then the lines are released. -/
theorem progShutdown_quiet {s : State} (g : Board) (cl cd : Bool) (hc : s.configured = true) (hq : s.quiet = true) :
    ∃ u, finish (runProg (progShutdown g cl cd) s) = (releaseLines u).endCommand none ∧
      (releaseLines u).trace = s.trace ++ quietTrace (shutdownBody g cl cd) ++ [TraceEvent.release true] := by
  obtain ⟨u, hrun, -, huq, htr⟩ := runProg_quiet _ (allPlain_shutdownBody g cl cd) s hc hq
  have hok := quiet_gpioNow huq
  refine ⟨u, ?_, by simp [releaseLines, hok, htr]⟩
  rw [progShutdown, runProg_guarded_done hrun, runOp, gpioRelease, if_pos hok, finish_done]

/-! ### INITIALIZE -/

/-- A chain at rest after its clear and enable: the all-off pattern loaded, and the enable line at its active level (R120,
R121). -/
def Chain.cleared (g : Board) : ChainId → Chain → Chain
  | .led, x => (x.loaded (g.depth .led) 0#6).drive (g.depth .led) .oe g.oeActive
  | .dig, x => (x.loaded (g.depth .dig) 0xFFFFFF#24).drive (g.depth .dig) .oe g.oeActive

/-- The clear and enable of a driven chain at rest, its all-off pattern given as a field. -/
theorem clearAndEnable_field {c : ChainId} {g : Board} {x : Chain} {n : Nat} (b : BitVec (n + 1))
    (hb : allOff c = seqOfField b) (hx : x.atRest = true) (hoe : x.lines.oe ≠ .z) (hd : n + 1 ≤ g.depth c) :
    Triple (At c g x) (clearAndEnable g c) (At c g ((x.loaded (g.depth c) b).drive (g.depth c) .oe g.oeActive))
      (fun _ _ => True) := by
  obtain ⟨hser, hlines⟩ := Chain.atRest_iff.1 hx
  have hload := loadSeq_at (c := c) (g := g) g.tPulse x.lines.oe x.st (allOff c) x.lines.ser x.sr x.redraws hser
  rw [← hlines, hb, serAfter_field, shiftAll_field b x.sr n.succ_ne_zero hd, seqOfField_length, ← hb] at hload
  have hclear : Triple (At c g x) (clearChain g c) (At c g (x.loaded (g.depth c) b)) (fun _ _ => True) :=
    hload.anyError.seq (abort_at.anyError.seq Triple.skip)
  have hset := (set_at (c := c) (g := g) (x := x.loaded (g.depth c) b) .oe g.oeActive hoe (by simp)).anyError
  exact hclear.seq (hset.seq (abort_at.anyError.seq Triple.skip))

theorem clearAndEnable_at {c : ChainId} {g : Board} {x : Chain} (hx : x.atRest = true) (hoe : x.lines.oe ≠ .z) :
    Triple (At c g x) (clearAndEnable g c) (At c g (x.cleared g c)) (fun _ _ => True) := by
  cases c with
  | led => exact clearAndEnable_field 0#6 (by decide) hx hoe (Nat.le_add_left 6 _)
  | dig => exact clearAndEnable_field 0xFFFFFF#24 (by decide) hx hoe (Nat.le_refl 24)

/-- A program whose operations are sets of another chain's lines, holds and abort points keeps a chain. -/
theorem Triple.other_at {c d : ChainId} {g : Board} {x : Chain} {p : Prog} (hcd : c ≠ d)
    (hp : ∀ o ∈ opsOf p, o = .abort ∨ (∃ m, o = .hold m) ∨ ∃ f v, o = .set ⟨d, f⟩ v) :
    Triple (At c g x) p (At c g x) (fun _ => At c g x) := by
  refine Triple.keeps p fun o ho t ht => ?_
  obtain rfl | ⟨m, rfl⟩ | ⟨f, v, rfl⟩ := hp o ho
  · exact abort_at t ht
  · exact hold_at m t ht
  · obtain ⟨htc, htg, htx⟩ := ht
    have hset : ∀ u e, At c g x ((driveLine ⟨d, f⟩ (levelOf u) t.afterGpio).emit e) := fun u e =>
      ⟨by simp [htc], by simp [htg], by simp [driveLine_chain_other ⟨d, f⟩ _ t.afterGpio c hcd, htx]⟩
    exact gpioSet_holds _ _ _ htc (hset v _) fun u => hset u _

theorem mem_opsOf_clearAndEnable {g : Board} {c : ChainId} {o : Op} (h : o ∈ opsOf (clearAndEnable g c)) :
    o = .abort ∨ (∃ m, o = .hold m) ∨ ∃ f v, o = .set ⟨c, f⟩ v := by
  simp only [clearAndEnable, clearChain, setEnable, opsOf_block_cons, opsOf_block_nil, opsOf, List.append_nil,
    List.mem_append, List.mem_singleton] at h
  rcases h with (h | rfl) | rfl | rfl
  · obtain rfl | rfl | ⟨f, v, -, rfl⟩ := mem_opsOf_loadSeq h
    · exact .inl rfl
    · exact .inr (.inl ⟨_, rfl⟩)
    · exact .inr (.inr ⟨f, v, rfl⟩)
  · exact .inl rfl
  · exact .inr (.inr ⟨.oe, _, rfl⟩)
  · exact .inl rfl

theorem Triple.onlyIf {P : State → Prop} {p : Prog} {Q : Bool → State → Prop} {E : Err → State → Prop}
    (hrun : Triple P p (Q true) E) (hskip : ∀ t, P t → Q false t) (r : Bool) : Triple P (Machine.onlyIf r p) (Q r) E := by
  cases r with
  | false => exact hskip
  | true => exact hrun

/-- The chains that an `INITIALIZE` is to clear (R61). -/
def requested (cl cd : Bool) : ChainId → Bool
  | .led => cl
  | .dig => cd

/-- After the configure, a requested chain is cleared and the other keeps its content (R121). -/
theorem initClears_at {c : ChainId} {g : Board} {x : Chain} (cl cd : Bool) (hx : x.lines = ⟨.lo, .lo, .lo, .lo⟩) :
    Triple (At c g x) (initClears g cl cd) (At c g (if requested cl cd c then x.cleared g c else x)) (fun _ _ => True) := by
  have hclear : ∀ r : Bool, Triple (At c g x) (onlyIf r (clearAndEnable g c)) (At c g (if r then x.cleared g c else x))
      (fun _ _ => True) :=
    Triple.onlyIf (Q := fun r => At c g (if r then x.cleared g c else x))
      (clearAndEnable_at (by simp [Chain.atRest, hx]) (by simp [hx])) (fun _ h => h)
  have hother : ∀ {d y} (r : Bool), c ≠ d →
      Triple (At c g y) (onlyIf r (clearAndEnable g d)) (At c g y) (fun _ _ => True) :=
    fun r hcd => Triple.onlyIf (Q := fun _ => At c g _)
      (Triple.other_at hcd fun _ => mem_opsOf_clearAndEnable).anyError (fun _ h => h) r
  cases c with
  | led => exact abort_at.anyError.seq ((hclear cl).seq ((hother cd (by decide)).seq Triple.skip))
  | dig => exact abort_at.anyError.seq ((hother cl (by decide)).seq ((hclear cd).seq Triple.skip))

theorem runProg_seq_done {a b : Prog} {s t : State} (h : runProg a s = .done t) : runProg (.seq a b) s = runProg b t := by
  rw [runProg, h]

/-- In a quiet environment an `INITIALIZE` comes past its configure, with every line at 0 (R27, R121). -/
theorem progInit_configures {s : State} (g : Board) (cl cd : Bool) (hq : s.quiet = true) :
    ∃ u, runProg (progInit g cl cd) s = runProg (initClears g cl cd) u ∧ u.configured = true ∧ u.quiet = true ∧
      u.cfg = s.cfg ∧ ∀ c, (u.chain c).lines = ⟨.lo, .lo, .lo, .lo⟩ := by
  have habort : runProg (.op .abort) s = .done (s.afterIrq.emit (.abortPoint false)) := by
    simp [runProg, runOp, abortPoint, quiet_irqNow hq]
  have hq₁ : (s.afterIrq.emit (.abortPoint false)).quiet = true := quiet_afterIrq hq
  generalize hs₁ : s.afterIrq.emit (.abortPoint false) = s₁ at habort hq₁
  have hconf : runProg (.op (.configure initLevel)) s₁ = .done (State.emit
      { driveAll (fun _ => levelOf initLevel) s₁.afterGpio with configured := true } (.configure initLevel true)) := by
    simp only [runProg, runOp, gpioConfigure, quiet_gpioNow hq₁, if_true]
  refine ⟨_, by rw [progInit_eq, runProg_seq_done habort, runProg_seq_done hconf], rfl, ?_, ?_, fun c => ?_⟩
  · rw [quiet_congr (s := s₁.afterGpio) (by simp) (by simp)]
    exact quiet_afterGpio hq₁
  · simp [← hs₁]
  · rw [State.chain_emit_configured, driveAll_lines]
    rfl

/-- The end of a quiet `INITIALIZE`, from any state: each chain has its lines at 0, and a requested one is then cleared and
enabled. -/
theorem exec_init_quiet {s : State} (cl cd : Bool) (hq : s.quiet = true) :
    ∃ t, exec (.init cl cd) s = .next t ∧ EndedWell t ∧ t.configured = true ∧ t.cfg = s.cfg ∧
      ∀ c, ∃ x : Chain, x.lines = ⟨.lo, .lo, .lo, .lo⟩ ∧
        t.chain c = if requested cl cd c then x.cleared s.cfg c else x := by
  obtain ⟨u, hrun, huc, huq, hug, hlines⟩ := progInit_configures s.cfg cl cd hq
  obtain ⟨v, hdone, hvc, -, -⟩ := runProg_quiet _ (allPlain_initClears s.cfg cl cd) u huc huq
  have hat : ∀ c, At c s.cfg (if requested cl cd c then (u.chain c).cleared s.cfg c else u.chain c) v := by
    intro c
    have h := initClears_at cl cd (hlines c) u ⟨huc, hug, rfl⟩
    rwa [hdone] at h
  refine ⟨v.endCommand none, ?_, ⟨rfl, rfl, rfl⟩, hvc, (hat .led).2.1, fun c => ⟨u.chain c, hlines c, ?_⟩⟩
  · rw [exec_eq_runPlan, planOf, planInit, runPlan, hrun, hdone, finish_done]
  · rw [State.endCommand_chain]
    exact (hat c).2.2

/-- What a cleared LED chain holds, and its lines (R122). -/
theorem Chain.cleared_led (g : Board) (x : Chain) :
    (x.cleared g .led).st = stagesOfField 0#6 ++ x.sr.take g.ledExtra ∧
      (x.cleared g .led).lines = ⟨.lo, .lo, .lo, levelOf g.oeActive⟩ :=
  ⟨by simp [Chain.cleared, Chain.drive, Board.depth], rfl⟩

/-- What a cleared Digit chain holds, and its lines (R122). -/
theorem Chain.cleared_dig (g : Board) (x : Chain) :
    (x.cleared g .dig).st = stagesOfField 0xFFFFFF#24 ∧
      (x.cleared g .dig).lines = ⟨.hi, .lo, .lo, levelOf g.oeActive⟩ :=
  ⟨by simp [Chain.cleared, Chain.drive, Board.depth], rfl⟩

/-- The all-off pattern of the tubes is `off` in every digit (R69, R120). -/
theorem digitField_allOff {k : Nat} (h1 : 1 ≤ k) (h6 : k ≤ 6) : digitField 0xFFFFFF#24 k = 0xF#4 := by
  interval_cases k <;> rfl

end Sys2Proof.Machine

open Sys2Proof Sys2Proof.Machine

/-- Settles O42: both are the load of the field's sequence. -/
theorem setLedsIsTheLedLoad : Obligations.SetLedsIsTheLedLoad := by
  intro l s
  rw [exec_eq_runPlan, exec_eq_runPlan, planOf, planOf, planSetLeds, planLoad, ledSequence_eq]

/-- Settles O45: the validation precedes the first step of the load. -/
theorem setDigitsRejectsBeforeAnyLine : Obligations.SetDigitsRejectsBeforeAnyLine :=
  fun _ _ hc hg => exec_setDigits_of_invalid hg hc

/-- Settles O48: the calls of the body's phases in their order, and the release. -/
theorem shutdownBlanksClearsReleases : Obligations.ShutdownBlanksClearsReleases := by
  intro cl cd s hc hq
  obtain ⟨u, hfin, htr⟩ := progShutdown_quiet s.cfg cl cd hc hq
  refine ⟨_, quietTrace (shutdownBody s.cfg cl cd) ++ [TraceEvent.release true, TraceEvent.ended none],
    by rw [exec_shutdown cl cd hc, hfin], ⟨rfl, rfl, rfl⟩, State.status_of_success rfl rfl, fun l => ?_, by simp [htr], ?_⟩
  · simpa [State.line] using releaseLines_line u l
  · rw [List.filter_append, ← quietCalls, quietCalls_shutdownBody]
    rfl

/-- Settles O40: the configure puts every line at 0, so each clear is a load of a chain at rest. -/
theorem initializeEndState : Obligations.InitializeEndState := by
  intro cl cd s hq
  obtain ⟨t, hexec, ⟨herr, hbusy, -⟩, htc, htg, hchain⟩ := exec_init_quiet cl cd hq
  refine ⟨t, hexec, htc, by rw [State.status_of_success herr hbusy, htc]; rfl, ?_, ?_, ?_⟩
  · rintro rfl
    obtain ⟨x, -, htx : t.led = x.cleared s.cfg .led⟩ := hchain .led
    obtain ⟨hst, hlines⟩ := x.cleared_led s.cfg
    rw [← htx] at hst hlines
    have hoe : t.line ⟨.led, .oe⟩ = levelOf t.cfg.oeActive := by rw [htg]; exact congrArg LineLevels.oe hlines
    refine ⟨by rw [hst]; rfl, by rw [State.visible_of_oe hoe, if_pos rfl]; rfl, fun k h1 h6 => ?_, hlines⟩
    have hstage : stageOf t.led.st k = false := by rw [hst, stageOf_stagesOfField_append _ _ h1 h6, BitVec.getLsbD_zero]
    simp [State.ledLit, State.visible_of_oe hoe, hstage]
  · rintro rfl
    obtain ⟨x, -, htx : t.dig = x.cleared s.cfg .dig⟩ := hchain .dig
    obtain ⟨hst, hlines⟩ := x.cleared_dig s.cfg
    rw [← htx] at hst hlines
    have hoe : t.line ⟨.dig, .oe⟩ = levelOf t.cfg.oeActive := by rw [htg]; exact congrArg LineLevels.oe hlines
    refine ⟨by rw [hst]; rfl, by rw [State.visible_of_oe hoe, if_pos rfl]; rfl, fun k h1 h6 => ?_, hlines⟩
    rw [tube_of_enabled hoe, hst, digitNibble_stagesOfField _ h1 h6, digitField_allOff h1 h6, tubeOf_off]
  · intro c hreq
    obtain ⟨x, hx, htx⟩ := hchain c
    have hnot : requested cl cd c = false := by rcases hreq with ⟨rfl, h⟩ | ⟨rfl, h⟩ <;> exact h
    rw [hnot, if_neg Bool.false_ne_true] at htx
    have hoe : t.line ⟨c, .oe⟩ = levelOf false := by rw [State.line, htx, hx]; rfl
    exact ⟨by rw [htx, hx], by rw [State.visible_of_oe hoe, htg]; cases s.cfg.oeActive <;> rfl⟩
end

section
/-! PROOF. The call level: which calls have a word (R76, R100), and what a load and an encode call keep (R13, R64, R74, R88). -/

namespace Sys2Proof.Machine

/-! ### Bit sequences and fields -/

theorem natOfSeq_concat (bits : List Bool) (b : Bool) : natOfSeq (bits ++ [b]) = Nat.bit b (natOfSeq bits) := by
  simp [natOfSeq, Nat.bit_val]

/-- Bit `i` of the number of a sequence is the sequence's element `i` from the end (R13). -/
theorem testBit_natOfSeq (bits : List Bool) (i : Nat) : (natOfSeq bits).testBit i = bits.reverse.getD i false := by
  induction bits using List.reverseRecOn generalizing i with
  | nil => simp [natOfSeq]
  | append_singleton bits b ih =>
    rw [natOfSeq_concat]
    cases i with
    | zero => simp
    | succ i => simp [Nat.testBit_bit_succ, ih]

/-- The field of a sequence of its own width has that sequence (R13). -/
theorem seqOfField_ofNat_natOfSeq {n : Nat} {bits : List Bool} (h : bits.length = n) :
    seqOfField (BitVec.ofNat n (natOfSeq bits)) = bits := by
  refine List.reverse_injective ?_
  rw [seqOfField_reverse]
  refine List.ext_getElem (by simp [h]) fun i hi hi' => ?_
  have hn : i < n := by simpa using hi
  have hbit : (stagesOfField (BitVec.ofNat n (natOfSeq bits)))[i] = (BitVec.ofNat n (natOfSeq bits)).getLsbD i := by
    simp [stagesOfField]
  rw [hbit, BitVec.getLsbD_ofNat, testBit_natOfSeq, List.getD_eq_getElem _ _ hi', decide_eq_true hn, Bool.true_and]

/-- The sequence of a field has the field's number (R13). -/
theorem ofNat_natOfSeq_seqOfField {n : Nat} (b : BitVec n) : BitVec.ofNat n (natOfSeq (seqOfField b)) = b := by
  refine BitVec.eq_of_getLsbD_eq fun i hi => ?_
  rw [BitVec.getLsbD_ofNat, testBit_natOfSeq, seqOfField_reverse]
  simp [stagesOfField, hi]

/-! ### Words of the calls beside those of R75 -/

theorem encode_loadLed (b : BitVec 6) : encode (.loadLed b) = 0x50000000 + b.setWidth 32 := by
  rw [encode, or_putAt_eq_add b (clearBelow_or (clearBelow_putAt _ (by decide)) (clearBelow_putAt _ (by decide))), putAt_zero]
  rfl

theorem encode_loadDig (b : BitVec 24) : encode (.loadDig b) = 0x51000000 + b.setWidth 32 := by
  rw [encode, or_putAt_eq_add b (clearBelow_or (clearBelow_putAt _ (by decide)) (clearBelow_putAt _ (by decide))), putAt_zero]
  rfl

theorem encode_encodeDigit (v : BitVec 4) : encode (.encodeDigit v) = 0x90000000 + v.setWidth 32 := by
  rw [encode, or_putAt_eq_add v (clearBelow_putAt _ (by decide)), putAt_zero]
  rfl

theorem callWord_encodeDigit (d : DigitValue) : callWord (.encodeDigit (argOfDigit d)) = .ok (0x90000000 + digitWord d) := by
  obtain ⟨f, hf, hword⟩ := digitFieldOfArg_argOfDigit d
  simp only [callWord, transcribe, hf, Except.map, encode_encodeDigit, hword]

/-! ### Well-formed calls -/

theorem allSome_eq_none {α : Type} {vs : List (Option α)} : allSome vs = none ↔ none ∈ vs := by
  induction vs with
  | nil => simp [allSome]
  | cons v vs ih => cases v <;> simp [allSome, ih]

/-- Arguments all have a value exactly if each is well-formed, where having a value is being well-formed. -/
theorem allSome_map_eq_none {α β : Type} {f : α → Option β} {p : α → Bool} (h : ∀ a, f a = none ↔ p a = false)
    (as : List α) : allSome (as.map f) = none ↔ as.all p = false := by
  simp [allSome_eq_none, h]

theorem ledBitOfArg_eq_none (a : Option LedArg) : ledBitOfArg a = none ↔ optWellFormed LedArg.wellFormed a = false := by
  rcases a with _ | _ | _ <;> simp [ledBitOfArg, optWellFormed, LedArg.wellFormed]

theorem digitFieldOfArg_eq_none (a : Option DigitArg) :
    digitFieldOfArg a = none ↔ optWellFormed DigitArg.wellFormed a = false := by
  rcases a with _ | v | _ | _
  · simp [digitFieldOfArg, optWellFormed]
  · by_cases h : 0 ≤ v ∧ v ≤ 14 <;> simp [digitFieldOfArg, optWellFormed, DigitArg.wellFormed, h]
  · simp [digitFieldOfArg, optWellFormed, DigitArg.wellFormed]
  · simp [digitFieldOfArg, optWellFormed, DigitArg.wellFormed]

/-- A call whose check decides between a command and a refusal has a word, or that refusal, by the same check. -/
theorem callWord_of_transcribe {c : Call} {r : RefusedInput} (hok : c.wellFormed = true → ∃ i, transcribe c = .ok i)
    (hbad : c.wellFormed = false → transcribe c = .error r) :
    if c.wellFormed = true then ∃ w, callWord c = .ok w else callWord c = .error r := by
  split_ifs with h
  · obtain ⟨i, hi⟩ := hok h
    exact ⟨encode i, by rw [callWord, hi, Except.map]⟩
  · rw [callWord, hbad (Bool.eq_false_iff.2 h), Except.map]

theorem transcribe_setLeds {leds : Vector (Option LedArg) 6} :
    ((Call.setLeds leds).wellFormed = true → ∃ i, transcribe (.setLeds leds) = .ok i) ∧
      ((Call.setLeds leds).wellFormed = false → transcribe (.setLeds leds) = .error .callForm) := by
  have h := allSome_map_eq_none ledBitOfArg_eq_none leds.toList
  rw [Call.wellFormed, transcribe, ← h]
  cases hs : allSome (leds.toList.map ledBitOfArg) with
  | none => simp [h.1 hs]
  | some bits => exact ⟨fun _ => ⟨_, rfl⟩, fun h' => nomatch h'⟩

theorem transcribe_setDigits {digits : Vector (Option DigitArg) 6} :
    ((Call.setDigits digits).wellFormed = true → ∃ i, transcribe (.setDigits digits) = .ok i) ∧
      ((Call.setDigits digits).wellFormed = false → transcribe (.setDigits digits) = .error .callForm) := by
  have h := allSome_map_eq_none digitFieldOfArg_eq_none digits.toList
  rw [Call.wellFormed, transcribe, ← h]
  cases hs : allSome (digits.toList.map digitFieldOfArg) with
  | none => simp [h.1 hs]
  | some bits => exact ⟨fun _ => ⟨_, rfl⟩, fun h' => nomatch h'⟩

theorem transcribe_encodeDigit {v : DigitArg} :
    ((Call.encodeDigit v).wellFormed = true → ∃ i, transcribe (.encodeDigit v) = .ok i) ∧
      ((Call.encodeDigit v).wellFormed = false → transcribe (.encodeDigit v) = .error .callForm) := by
  have h : digitFieldOfArg (some v) = none ↔ v.wellFormed = false := digitFieldOfArg_eq_none (some v)
  rw [Call.wellFormed, transcribe, ← h]
  cases hf : digitFieldOfArg (some v) with
  | none => simp [h.1 hf]
  | some f => exact ⟨fun _ => ⟨_, rfl⟩, fun h' => nomatch h'⟩

/-- Every integer that has a digit field is its Digit Value (R69, R74). -/
theorem digitValue_ofNat_of_lt {n : Nat} (h : n < 15) : digitValue (BitVec.ofNat 4 n) = .int n := by
  have hmod : n % 16 = n := by omega
  have hoff : BitVec.ofNat 4 n ≠ 0xF#4 := by bv_omega
  simp [digitValue, hoff, hmod]

end Sys2Proof.Machine

open Sys2Proof Sys2Proof.Machine

/-- Settles O50: each check of a call form is the check of its operands. -/
theorem onlyWellFormedCallsHaveWords : Obligations.OnlyWellFormedCallsHaveWords := by
  intro c
  cases c with
  | setLeds leds => exact callWord_of_transcribe transcribe_setLeds.1 transcribe_setLeds.2
  | setDigits digits => exact callWord_of_transcribe transcribe_setDigits.1 transcribe_setDigits.2
  | load c bits =>
    refine callWord_of_transcribe (fun h => ?_) (fun h => ?_)
    · cases c <;> exact ⟨_, if_pos (by simpa [Call.wellFormed] using h)⟩
    · cases c <;> exact if_neg (by simpa [Call.wellFormed] using h)
  | pulse line rest width =>
    cases width with
    | none => exact ⟨_, rfl⟩
    | some n =>
      refine callWord_of_transcribe (fun h => ?_) (fun h => ?_)
      · exact ⟨_, if_pos (by simpa [Call.wellFormed, optWellFormed] using h)⟩
      · exact if_neg (by simpa [Call.wellFormed, optWellFormed] using h)
  | encodeDigit v => exact callWord_of_transcribe transcribe_encodeDigit.1 transcribe_encodeDigit.2
  | init _ _ | shutdown _ _ | enable _ | disable _ => exact ⟨_, rfl⟩

/-- Settles O51: sequence and field determine each other (R13). -/
theorem loadCallKeepsItsBits : Obligations.LoadCallKeepsItsBits :=
  ⟨fun _ h => ⟨_, if_pos h, seqOfField_ofNat_natOfSeq h⟩, fun _ h => ⟨_, if_pos h, seqOfField_ofNat_natOfSeq h⟩⟩

/-- Settles O52: a field has its integer as Digit Value, and 0xA fails like every integer without a field. -/
theorem encodeCallKeepsTheValue : Obligations.EncodeCallKeepsTheValue := by
  intro v
  by_cases h : 0 ≤ v ∧ v ≤ 14
  · obtain ⟨n, rfl⟩ := Int.eq_ofNat_of_zero_le h.1
    have hn : n < 15 := by omega
    refine ⟨BitVec.ofNat 4 n, by simp [transcribe, digitFieldOfArg, h.2], ?_⟩
    rw [← enc_digitValue, digitValue_ofNat_of_lt hn]
  · refine ⟨0xA#4, by simp [transcribe, digitFieldOfArg, h], ?_⟩
    have h9 : ¬(0 ≤ v ∧ v ≤ 9) := by omega
    exact (if_neg h9).symm

/-- Settles O54: the fields of a load are the sequence's, and a width of 0 is the field of the default. -/
theorem otherCallsHaveTheirWords : Obligations.OtherCallsHaveTheirWords := by
  refine ⟨fun b => ?_, fun b => ?_, callWord_encodeDigit, fun l r => rfl⟩
  · simp [callWord, transcribe, loadWidth, Except.map, ofNat_natOfSeq_seqOfField, encode_loadLed]
  · simp [callWord, transcribe, loadWidth, Except.map, ofNat_natOfSeq_seqOfField, encode_loadDig]
end

section
/-! PROOF. The host's side: its registers, its commands and calls, and what is refused (R22, R25, R33, R34, R149, R154, R164). -/

namespace Sys2Proof.Machine

/-- On a well-formed board a step is what the host's next action does. -/
theorem step_of_host {s : State} {e : HostEvent} {rest : List HostEvent} (hwf : s.cfg.wellFormed = true)
    (hh : s.host = e :: rest) : step s = hostAction e { s with host := rest } := by
  rw [step_eq s hwf, State.nextAction_of_host hh]

theorem ifReady_of_noFault {s : State} (hf : s.faults = []) (k : Host.Outcome State Fault Refusal) :
    ifReady s k = if s.busy = false ∧ s.seq = .idle then k else .refused .commandWhileBusy := by
  rw [ifReady, if_neg (not_not_intro hf)]

theorem ifReady_of_fault {s : State} (hf : s.faults ≠ []) (k : Host.Outcome State Fault Refusal) :
    ifReady s k = .fault .unconfigured := by
  rw [ifReady, if_pos hf]

/-- What a fault recorded stops: the controller's own turn and every action that would start a command (R149). -/
theorem hostAction_of_fault {s : State} {e : HostEvent} (hf : s.faults ≠ [])
    (he : e = .tick ∨ (∃ w, e = .command w) ∨ (∃ c, e = .call c) ∨ ∃ v, e = .write 0 v) :
    hostAction e s = .fault .unconfigured := by
  rcases he with rfl | ⟨w, rfl⟩ | ⟨c, rfl⟩ | ⟨v, rfl⟩
  · rw [hostAction, if_pos hf]
  · exact ifReady_of_fault hf _
  · exact ifReady_of_fault hf _
  · exact ifReady_of_fault hf _

/-- Two lines on one pin make a board ill-formed (R25). -/
theorem Board.wellFormed_eq_false {b : Board} {i j : Fin 8} (hij : i ≠ j) (hpin : b.pins[i] = b.pins[j]) :
    b.wellFormed = false := by
  refine decide_eq_false fun hnodup => hij (Fin.ext ?_)
  refine (hnodup.getElem_inj_iff (hi := by simp) (hj := by simp)).1 ?_
  simpa using hpin

/-- The fields of a `STATUS` word, each at its place (R34). -/
theorem statusWord_fields (e : BitVec 4) (b c : Bool) :
    (0#24 ++ e ++ 0#2 ++ BitVec.ofBool b ++ BitVec.ofBool c).getLsbD 1 = b ∧
      (0#24 ++ e ++ 0#2 ++ BitVec.ofBool b ++ BitVec.ofBool c).extractLsb' 2 2 = 0 ∧
      (0#24 ++ e ++ 0#2 ++ BitVec.ofBool b ++ BitVec.ofBool c).extractLsb' 4 4 = e ∧
      (0#24 ++ e ++ 0#2 ++ BitVec.ofBool b ++ BitVec.ofBool c).extractLsb' 8 24 = 0 := by
  revert e b c
  decide

theorem powerUp_fits (b : Board) (c : ChainId) : (State.powerUp b).fits c := by
  cases c <;> simp [State.fits, State.powerUp]

theorem powerUp_line (b : Board) (l : Line) : (State.powerUp b).line l = .z := by
  obtain ⟨_ | _, _ | _ | _ | _⟩ := l <;> rfl

end Sys2Proof.Machine

open Sys2Proof Sys2Proof.Machine

/-- Settles O5: the ready machine issues the word and its decoder finds the command. -/
theorem stepRunsTheDecodedCommand : Obligations.StepRunsTheDecodedCommand := by
  intro s w rest i hwf hf hb hq hh hdec
  rw [step_command hwf hf hb hq hh, runCommand, hdec]
  rfl

/-- Settles O8: the fields by the word's layout, `BUSY` against `SEQ` by the invariant. -/
theorem statusHasItsLayout : Obligations.StatusHasItsLayout := by
  intro s
  obtain ⟨hbusy, hlow, herr, hhigh⟩ := statusWord_fields (errCode s.err) s.busy s.configured
  refine ⟨s.status_conf, hbusy, hlow, herr, hhigh, fun hinv hq => ?_, fun hinv hf hb hq => ?_, rfl, rfl, rfl, rfl, rfl⟩
  · obtain ⟨-, -, hfits⟩ := (State.inv_iff s).1 hinv
    simpa [State.busyFits, hq] using hfits
  · obtain ⟨-, -, hfits⟩ := (State.inv_iff s).1 hinv
    simp [State.busyFits, hq, hb, hf] at hfits

/-- Settles O9: by the number of the register. -/
theorem hostReadsAnswerTheRegisters : Obligations.HostReadsAnswerTheRegisters := by
  intro s reg rest hwf hh
  rw [step_of_host hwf hh]
  match reg with
  | 0 => rfl
  | 1 => rfl
  | 2 => rfl
  | n + 3 => rfl

/-- Settles O10: by the number of the register; only `CMD` asks whether the controller is ready. -/
theorem hostWritesReachOnlyCmd : Obligations.HostWritesReachOnlyCmd := by
  intro s reg v rest hwf hf hh
  rw [step_of_host hwf hh]
  match reg with
  | 0 => exact ifReady_of_noFault (s := { s with host := rest }) hf _
  | 1 => rfl
  | 2 => rfl
  | n + 3 => rfl

/-- Settles O11: the drawn contents have the chains' depth, and nothing else is set. -/
theorem resetMeetsTheInvariant : Obligations.ResetMeetsTheInvariant :=
  (State.inv_iff _).2 ⟨⟨powerUp_fits _, (nomatch ·), by decide, List.nodup_nil, List.nodup_nil⟩, rfl, rfl⟩

/-- Settles O19: by the fields of the power-up state. -/
theorem powerUpState : Obligations.PowerUpState :=
  ⟨rfl, powerUp_line _, State.status_of_success rfl rfl, rfl, rfl, rfl⟩

/-- Settles O20: with nothing to come from the host the controller has its turn, which a fault stops like the actions named. -/
theorem faultedMachineTakesNoStep : Obligations.FaultedMachineTakesNoStep := by
  rintro s hwf hf (hh | ⟨e, rest, hh, he⟩)
  · rw [step_eq s hwf, State.nextAction, hh]
    exact hostAction_of_fault hf (.inl rfl)
  · rw [step_of_host hwf hh]
    exact hostAction_of_fault (s := { s with host := rest }) hf he

/-- Settles O21: the board is ill-formed, and is refused before any action of the host. -/
theorem pinConflictIsRefused : Obligations.PinConflictIsRefused := by
  rintro s ⟨i, j, hij, hpin⟩
  rw [step, machineStep, if_neg (by simp [Board.wellFormed_eq_false hij hpin]), refuseBoard]
  split_ifs with hm
  · rfl
  · rw [State.refuse, if_neg hm]

/-- Settles O53: the word of a call is run as a command's is. -/
theorem callsRunAsTheirWords : Obligations.CallsRunAsTheirWords := by
  intro s c rest hwf hf hb hq hh
  have hcall : step s = _ :=
    (step_of_host hwf hh).trans (ifReady_of_idle (s := { s with host := rest }) hf hb hq _)
  refine ⟨fun w hw => ?_, fun r hr => ?_⟩
  · rw [hcall, hw, step_command (s := { s with host := .command w :: rest }) hwf hf hb hq rfl]
  · rw [hcall, hr]
end
